-- ==== Sys2Proof/Word.lean ====
section
/-! DEFINITION. The widths of 00_scope.md rules R6 and R7, as bit-vector types. Nothing is signed (R38). -/

namespace Sys2Proof

/-- `BYTE_W` = 8 (R6): one unit of decoder input. -/
abbrev Byte := BitVec 8

/-- `ACC_W` = 21 (R6): the accumulator, and the scalar a decoder record hands out. -/
abbrev Acc := BitVec 21

/-- `SCALAR_IN_W` = 32 (R6): the operand of the encoder. -/
abbrev Scalar := BitVec 32

/-- `REQ_W` = 36 (R7): a request word, the 4-bit operation code above the 32-bit operand field. -/
abbrev ReqWord := BitVec 36

/-- `CLASS_W` = 4 (R7): the code of a byte class. -/
abbrev ClassCode := BitVec 4

/-- `STATE_W` = 4 (R7): the code of a decoder state. -/
abbrev StateCode := BitVec 4

/-- `LEN_W` = 3 (R7): the encoder's length output. -/
abbrev Len := BitVec 3

end Sys2Proof
end

