-- ==== Sys2Proof/Config.lean ====
section
/-! DEFINITION. What an implementation fixes. The spec has one open parameter, `N_INST`
(92_eei_decisions.md D14: "Nothing else is open"), and no free value (70_reset_and_hazards.md R122). -/

namespace Sys2Proof.Config

/-- `N_INST` of the machine `State.reset` describes. The spec leaves it open, at least 1
(00_scope.md R7, D14): DESIGN CHOICE 2, log entry 4, unsafe for a claim that rests on the number.
`State.resetOf` takes it as an argument, and the statements hold for any number of instances. -/
def nInst : Nat := 2

end Sys2Proof.Config
end

