-- ==== Sys2Proof/Syntax.lean ====
section
/-! DEFINITION. The six operations of the block (30_encoding.md R41), the opcode names, a line of the
assembler before its operand is checked (R50), the pseudo-operations (R51), and a request as the
platform delivers it. -/

namespace Sys2Proof

/-- The operations of the block, one constructor for each row of the opcode map (R41). Operand widths
are R42's: a byte is 8 bits used at its own width, a scalar 32 bits unsigned. -/
inductive Instr where
  | decInit
  | decStep (b : Byte)
  | decVstep (b : Byte)
  | decFinish
  | encEncode (v : Scalar)
  | encLength (v : Scalar)
deriving DecidableEq, Repr

/-- The names of the opcode map (R41), without operands. -/
inductive Opcode where
  | decInit
  | decStep
  | decVstep
  | decFinish
  | encEncode
  | encLength
deriving DecidableEq, Repr

/-- The three request formats (R40): no operand, a byte, a scalar. -/
inductive Format where
  | n
  | b
  | s
deriving DecidableEq, Repr

/-- One assembler line as written (R50): a mnemonic followed by its operand, if any, as a number. The
operand is still any number; `RawOp.wf` checks it. -/
structure RawOp where
  op : Opcode
  operand : Option Nat
deriving DecidableEq, Repr

/-- The pseudo-operations (R51): sequences a driver issues, with no encoding of their own. -/
inductive Pseudo where
  | decFeed (b : Byte)
  | decVfeed (b : Byte)
  | decString (bs : List Byte)
  | decVstring (bs : List Byte)
  | encSubst (v : Scalar)
  | encString (vs : List Scalar)
deriving DecidableEq, Repr

/-- One request the driver has issued: the 36-bit word (R40), and the instance the platform addresses with
it (60_exceptions.md R105: an instance is "identified only by how the platform addresses it"; the word
holds no instance number). For an encoder word `inst` means nothing. -/
structure Request where
  inst : Nat
  word : ReqWord
deriving DecidableEq, Repr

end Sys2Proof
end

