-- ==== Sys2Proof/WellFormed.lean ====
section
/-! DEFINITION. What a legal request word, a legal assembler line and a legal request are. These checks
are written on numbers, apart from the decoder, so that "the decoder takes exactly the legal words" is a
statement with content. -/

namespace Sys2Proof

/-- A request word that is not reserved (30_encoding.md R40, R43): `op` 0x0 to 0x5; in format N (ops 0x0
and 0x3) `arg` is 0; in format B (ops 0x1 and 0x2) `arg[31:8]` is 0. -/
def ReqWord.wf (w : ReqWord) : Bool :=
  let op := w.toNat / 2 ^ 32
  let arg := w.toNat % 2 ^ 32
  if op = 0 ∨ op = 3 then decide (arg = 0)
  else if op = 1 ∨ op = 2 then decide (arg < 256)
  else decide (op ≤ 5)

/-- An assembler line whose operand fits its operation (R41, R42, R50): none for format N, a number below
2^8 for format B, a number below 2^32 for format S. -/
def RawOp.wf (r : RawOp) : Bool :=
  match r.op, r.operand with
  | .decInit, none => true
  | .decFinish, none => true
  | .decStep, some n => decide (n < 2 ^ 8)
  | .decVstep, some n => decide (n < 2 ^ 8)
  | .encEncode, some n => decide (n < 2 ^ 32)
  | .encLength, some n => decide (n < 2 ^ 32)
  | _, _ => false

/-- A well-formed operation. Every operand value of an operation is legal (R42, and R5: every operation is
total); the widths are in the types, so nothing is left to check. The constructors are listed so that a
new one cannot slip past. -/
def Instr.wf : Instr → Bool
  | .decInit => true
  | .decStep _ => true
  | .decVstep _ => true
  | .decFinish => true
  | .encEncode _ => true
  | .encLength _ => true

/-- A request a driver may issue on a machine of `nInst` instances (42_reference_driver.md R90: "does not
issue reserved request words"): its word is legal, and if the word is a decoder operation (`op` below 4)
the instance it addresses exists. -/
def Request.wf (nInst : Nat) (r : Request) : Bool :=
  ReqWord.wf r.word && (decide (r.inst < nInst) || decide (4 ≤ r.word.toNat / 2 ^ 32))

end Sys2Proof
end

