-- ==== Sys2Proof/Decode.lean ====
section
/-! DEFINITION. The request word of 30_encoding.md R40 to R43: its fields, the opcode map, the decoder
(total on the 2^36 words, refusing by name), and the encoder. -/

namespace Sys2Proof

/-- `req[35:32]`, the operation code (R40). -/
def opField (w : ReqWord) : BitVec 4 := w.extractLsb' 32 4

/-- `req[31:0]`, the operand field `arg` (R40); in format S it is the scalar, never extended (R42). -/
def argField (w : ReqWord) : Scalar := w.extractLsb' 0 32

/-- `req[7:0]`, the byte of format B (R40, R42). -/
def byteField (w : ReqWord) : Byte := w.extractLsb' 0 8

/-- `req[31:8]`, which format B wants to be 0 (R40). -/
def zeroField (w : ReqWord) : BitVec 24 := w.extractLsb' 8 24

/-- The operation code of each name (the opcode map, R41). -/
def Opcode.code : Opcode → BitVec 4
  | .decInit => 0x0#4
  | .decStep => 0x1#4
  | .decVstep => 0x2#4
  | .decFinish => 0x3#4
  | .encEncode => 0x4#4
  | .encLength => 0x5#4

/-- The format of each name (the opcode map, R41). -/
def Opcode.format : Opcode → Format
  | .decInit => .n
  | .decStep => .b
  | .decVstep => .b
  | .decFinish => .n
  | .encEncode => .s
  | .encLength => .s

/-- The name of an operation. -/
def Instr.opcode : Instr → Opcode
  | .decInit => .decInit
  | .decStep _ => .decStep
  | .decVstep _ => .decVstep
  | .decFinish => .decFinish
  | .encEncode _ => .encEncode
  | .encLength _ => .encLength

/-- Why a request word is reserved (R43): its `op` is 0x6 to 0xF, or a field that must be 0 is not. -/
inductive Reserved where
  /-- `op` is 0x6 to 0xF. -/
  | opcode
  /-- Format N and `arg` is not 0. -/
  | operandOfFormatN
  /-- Format B and `arg[31:8]` is not 0. -/
  | operandOfFormatB
deriving DecidableEq, Repr

/-- What the decoder answers: an operation, or the name of the rule the word breaks ("no operation", R43). -/
inductive Decoded where
  | op (i : Instr)
  | reserved (r : Reserved)
deriving DecidableEq, Repr

/-- The operation of a format N word, if its operand field is 0 (R40, R43). -/
def decodeN (i : Instr) (w : ReqWord) : Decoded :=
  if argField w = 0#32 then .op i else .reserved .operandOfFormatN

/-- The operation of a format B word, if `req[31:8]` is 0 (R40, R42, R43). -/
def decodeB (f : Byte → Instr) (w : ReqWord) : Decoded :=
  if zeroField w = 0#24 then .op (f (byteField w)) else .reserved .operandOfFormatB

/-- The operation of a format S word: every operand is legal (R40, R42). -/
def decodeS (f : Scalar → Instr) (w : ReqWord) : Decoded :=
  .op (f (argField w))

/-- The operation a request word spells (R41), or why it spells none (R43). A reserved word is not an alias
of an operation with bits ignored (93_implementation_defined.md U3). -/
def decode (w : ReqWord) : Decoded :=
  match (opField w).toNat with
  | 0 => decodeN .decInit w
  | 1 => decodeB .decStep w
  | 2 => decodeB .decVstep w
  | 3 => decodeN .decFinish w
  | 4 => decodeS .encEncode w
  | 5 => decodeS .encLength w
  | _ => .reserved .opcode

/-- The operand field of an operation: 0 for format N, the byte zero-extended for format B, the scalar for
format S (R40; R50: "`{op, zext_32(operand)}`"). -/
def Instr.arg : Instr → Scalar
  | .decInit => 0#32
  | .decStep b => b.setWidth 32
  | .decVstep b => b.setWidth 32
  | .decFinish => 0#32
  | .encEncode v => v
  | .encLength v => v

/-- The request word of an operation (R40, R50). -/
def encode (i : Instr) : ReqWord := i.opcode.code ++ i.arg

/-- A request word from a number of the opcode table's, `nbits` of whose bits count and the rest of which are
0. The port has 36 lines: a bit of the number above bit 35 exists nowhere (log entry 9). -/
def reqWordOfTable (nbits w : Nat) : ReqWord := BitVec.ofNat 36 (w % 2 ^ nbits)

/-- The operation the decoder reads from a word numbered as spec/opcode_table.json numbers it. -/
def decodeTableWord (nbits w : Nat) : Option Instr :=
  match decode (reqWordOfTable nbits w) with
  | .op i => some i
  | .reserved _ => none

end Sys2Proof
end

