-- ==== Sys2Proof/Machine/State.lean ====
section
/-! DEFINITION. The state of the machine (10_state.md), the result records (10_state.md R16), the ways a
step can stop, and the state after reset (R19). Plain data. -/

namespace Sys2Proof.Machine

/-- The nine values of `STATE` (10_state.md R11, R12). `ACCEPT` and `REJECT` are the START states; each of
the other seven says how many continuation bytes are still expected and which lead byte, if any, restricts
the next one. Codes 9 to 15 are unrepresentable (30_encoding.md R45, D28). -/
inductive DecState where
  | accept
  | reject
  | cont1
  | cont2
  | cont2E0
  | cont2ED
  | cont3
  | cont3F0
  | cont3F4
deriving DecidableEq, Repr

/-- The thirteen byte classes of `CLASS_ROM` (20_memory.md R21). Codes 13 to 15 are unrepresentable
(30_encoding.md R44, D28). -/
inductive ByteClass where
  | ascii
  | contLo
  | contMid
  | contHi
  | lead2
  | lead3
  | lead3E0
  | lead3ED
  | lead4
  | lead4F0
  | lead4F4
  | invOverlong
  | invTooLarge
deriving DecidableEq, Repr

/-- The complete state of one decoder instance: the pair (`STATE`, `ACC`) (10_state.md R10). -/
structure DecInst where
  state : DecState
  acc : Acc
deriving DecidableEq, Repr

/-- The pair every instance holds after reset, and after `DEC.INIT` and `DEC.FINISH` (10_state.md R19,
70_reset_and_hazards.md R110, R111): `ACCEPT` and 0. -/
def DecInst.start : DecInst := { state := .accept, acc := 0#21 }

/-- The decoder result record (10_state.md R16, 30_encoding.md R46). `state` is `STATE` after the operation;
`out` is the scalar handed to the sink, or absent. -/
structure DecResult where
  state : DecState
  done : Bool
  rej : Bool
  err : Bool
  replay : Bool
  out : Option Acc
deriving DecidableEq, Repr

/-- The encoder result record (10_state.md R16, 30_encoding.md R47). -/
structure EncResult where
  len : Len
  err : Bool
  b0 : Byte
  b1 : Byte
  b2 : Byte
  b3 : Byte
deriving DecidableEq, Repr

/-- A result record of either unit. -/
inductive Result where
  | dec (r : DecResult)
  | enc (r : EncResult)
deriving DecidableEq, Repr

/-- The kinds of agent (10_state.md R8): a decoder instance, the encoder unit, the driver. -/
inductive Agent where
  | decoder (k : Nat)
  | encoder
  | driver
deriving DecidableEq, Repr

/-- The state of the machine. The block's own state is `insts` alone (10_state.md R10, R16: the encoder has
none). The other three fields are the model's: what the driver has issued, which instance it addresses, and
the record it last got back (log entries 1, 2, 3). -/
structure State where
  /-- One pair (`STATE`, `ACC`) for each of the `N_INST` decoder instances (R10, 60_exceptions.md R105). -/
  insts : List DecInst
  /-- The instance the platform addresses with the operation being performed (R105). -/
  sel : Nat
  /-- The requests issued and not yet performed, oldest first (20_memory.md R33). -/
  pending : List Request
  /-- The record the last operation returned; none until the first returns one (R16, R19). -/
  result : Option Result
deriving DecidableEq, Repr

/-- No operation raises, traps, aborts, hangs or stops the block (60_exceptions.md R92): there is no fault,
so nobody raises one. -/
inductive Fault
deriving DecidableEq, Repr

/-- Why the machine refuses to go on. -/
inductive Refusal where
  /-- Raised by an arm of `exec` whose instruction has no meaning yet. Safe. No arm raises it now. -/
  | notModelled (mnemonic : String)
  /-- Raised by `step` on a reserved word whose `op` is 0x6 to 0xF (30_encoding.md R43). Safe: the spec's own
  `refuse`; no claim can be proved about a run that contains one. -/
  | reservedOpcode
  /-- Raised by `step` on a reserved word of format N or B with a bit set that must be 0 (R43). Safe: the spec's
  own `refuse`. -/
  | reservedOperand
  /-- Raised by a decoder operation issued to an instance the machine does not have (log entry 5). Safe: no
  platform can address one; the spec gives it no effect. -/
  | noSuchInstance
deriving DecidableEq, Repr

/-- The machine of `n` instances right after reset (10_state.md R19, 70_reset_and_hazards.md R110): every
instance at (`ACCEPT`, 0), no result record. `N_INST` is the argument the spec asks a model to take (D14). -/
def State.resetOf (n : Nat) : State :=
  { insts := List.replicate n DecInst.start, sel := 0, pending := [], result := none }

/-- The machine right after reset, with `Config.nInst` instances (log entry 4). -/
def State.reset : State := State.resetOf Config.nInst

end Sys2Proof.Machine
end

