-- ==== Sys2Proof/Machine/Rom.lean ====
section
/-! DEFINITION. The three constant tables (20_memory.md R20 to R28) and the numeric codes that index them
in a bit-level implementation (30_encoding.md R44, R45). The machine indexes by enumeration values; the
layout of R28, with its padding, stands beside it. -/

namespace Sys2Proof.Machine

/-- `CLASS_ROM[b]` (R21): the ranges of the rule, in rising order of the byte. A function of the byte alone
(R22). -/
def classRom (b : Byte) : ByteClass :=
  let n := b.toNat
  if n ≤ 0x7F then .ascii
  else if n ≤ 0x8F then .contLo
  else if n ≤ 0x9F then .contMid
  else if n ≤ 0xBF then .contHi
  else if n ≤ 0xC1 then .invOverlong
  else if n ≤ 0xDF then .lead2
  else if n = 0xE0 then .lead3E0
  else if n = 0xED then .lead3ED
  else if n ≤ 0xEF then .lead3
  else if n = 0xF0 then .lead4F0
  else if n ≤ 0xF3 then .lead4
  else if n = 0xF4 then .lead4F4
  else .invTooLarge

/-- The row of `TRANS_ROM` shared by the two START states (R23; the `REJECT` row equals the `ACCEPT` row,
90_conflicts.md C3). A cell not listed is `REJECT`. -/
def startRow : ByteClass → DecState
  | .ascii => .accept
  | .lead2 => .cont1
  | .lead3 => .cont2
  | .lead3E0 => .cont2E0
  | .lead3ED => .cont2ED
  | .lead4 => .cont3
  | .lead4F0 => .cont3F0
  | .lead4F4 => .cont3F4
  | _ => .reject

/-- `TRANS_ROM[s][c]` (R23). A cell not listed is `REJECT`. -/
def transRom (s : DecState) (c : ByteClass) : DecState :=
  match s, c with
  | .accept, c => startRow c
  | .reject, c => startRow c
  | .cont1, .contLo => .accept
  | .cont1, .contMid => .accept
  | .cont1, .contHi => .accept
  | .cont2, .contLo => .cont1
  | .cont2, .contMid => .cont1
  | .cont2, .contHi => .cont1
  | .cont2E0, .contHi => .cont1
  | .cont2ED, .contLo => .cont1
  | .cont2ED, .contMid => .cont1
  | .cont3, .contLo => .cont2
  | .cont3, .contMid => .cont2
  | .cont3, .contHi => .cont2
  | .cont3F0, .contMid => .cont2
  | .cont3F0, .contHi => .cont2
  | .cont3F4, .contLo => .cont2
  | _, _ => .reject

/-- `SEED_MASK[c]`, 7 bits (R25): the payload bits of a lead byte of the class; 0 for a class that never
starts a sequence. -/
def seedMask : ByteClass → BitVec 7
  | .ascii => 0x7F#7
  | .lead2 => 0x1F#7
  | .lead3 => 0x0F#7
  | .lead3E0 => 0x0F#7
  | .lead3ED => 0x0F#7
  | .lead4 => 0x07#7
  | .lead4F0 => 0x07#7
  | .lead4F4 => 0x07#7
  | .contLo => 0x00#7
  | .contMid => 0x00#7
  | .contHi => 0x00#7
  | .invOverlong => 0x00#7
  | .invTooLarge => 0x00#7

/-- The length a first byte of this class announces (30_encoding.md R49); none for a class that starts no
sequence. -/
def ByteClass.seqLen : ByteClass → Option Nat
  | .ascii => some 1
  | .lead2 => some 2
  | .lead3 => some 3
  | .lead3E0 => some 3
  | .lead3ED => some 3
  | .lead4 => some 4
  | .lead4F0 => some 4
  | .lead4F4 => some 4
  | .contLo => none
  | .contMid => none
  | .contHi => none
  | .invOverlong => none
  | .invTooLarge => none

/-- `s == ACCEPT` (10_state.md R11). -/
def DecState.isAccept : DecState → Bool
  | .accept => true
  | _ => false

/-- `s == REJECT` (10_state.md R11). -/
def DecState.isReject : DecState → Bool
  | .reject => true
  | _ => false

/-- `s in START`: `ACCEPT` or `REJECT` (00_scope.md R38). -/
def DecState.isStart : DecState → Bool
  | .accept => true
  | .reject => true
  | _ => false

/-- `s in IN_PROGRESS`: one of the seven other states (R38, 10_state.md R12). -/
def DecState.inProgress (s : DecState) : Bool := !s.isStart

/-- How many continuation bytes are still expected (10_state.md R12). -/
def DecState.owed : DecState → Nat
  | .accept => 0
  | .reject => 0
  | .cont1 => 1
  | .cont2 => 2
  | .cont2E0 => 2
  | .cont2ED => 2
  | .cont3 => 3
  | .cont3F0 => 3
  | .cont3F4 => 3

/-! The numeric codes and the bit-level layout -/

/-- The code of a class (30_encoding.md R44). -/
def ByteClass.code : ByteClass → ClassCode
  | .ascii => 0#4
  | .contLo => 1#4
  | .contMid => 2#4
  | .contHi => 3#4
  | .lead2 => 4#4
  | .lead3 => 5#4
  | .lead3E0 => 6#4
  | .lead3ED => 7#4
  | .lead4 => 8#4
  | .lead4F0 => 9#4
  | .lead4F4 => 10#4
  | .invOverlong => 11#4
  | .invTooLarge => 12#4

/-- The class a code stands for, if any; 13 to 15 are unused (R44). -/
def ByteClass.ofCode (c : ClassCode) : Option ByteClass :=
  match c.toNat with
  | 0 => some .ascii
  | 1 => some .contLo
  | 2 => some .contMid
  | 3 => some .contHi
  | 4 => some .lead2
  | 5 => some .lead3
  | 6 => some .lead3E0
  | 7 => some .lead3ED
  | 8 => some .lead4
  | 9 => some .lead4F0
  | 10 => some .lead4F4
  | 11 => some .invOverlong
  | 12 => some .invTooLarge
  | _ => none

/-- The code of a decoder state (30_encoding.md R45), which the `STATE` output shows. -/
def DecState.code : DecState → StateCode
  | .accept => 0#4
  | .reject => 1#4
  | .cont1 => 2#4
  | .cont2 => 3#4
  | .cont2E0 => 4#4
  | .cont2ED => 5#4
  | .cont3 => 6#4
  | .cont3F0 => 7#4
  | .cont3F4 => 8#4

/-- The state a code stands for, if any; 9 to 15 are unused (R45). -/
def DecState.ofCode (s : StateCode) : Option DecState :=
  match s.toNat with
  | 0 => some .accept
  | 1 => some .reject
  | 2 => some .cont1
  | 3 => some .cont2
  | 4 => some .cont2E0
  | 5 => some .cont2ED
  | 6 => some .cont3
  | 7 => some .cont3F0
  | 8 => some .cont3F4
  | _ => none

/-- The `CLASS_ROM` of R28: 256 entries of 4 bits at index `b[7:0]`. -/
def classRomBits (b : Byte) : ClassCode := (classRom b).code

/-- The `TRANS_ROM` of R28: 256 entries of 4 bits at index `{s[3:0], c[3:0]}`; padding holds `REJECT`
(code 1). -/
def transRomBits (index : BitVec 8) : StateCode :=
  match DecState.ofCode (index.extractLsb' 4 4), ByteClass.ofCode (index.extractLsb' 0 4) with
  | some s, some c => (transRom s c).code
  | _, _ => 1#4

/-- The `SEED_MASK` of R28: 16 entries of 7 bits at index `c[3:0]`; padding holds 0. -/
def seedMaskBits (index : ClassCode) : BitVec 7 :=
  match ByteClass.ofCode index with
  | some c => seedMask c
  | none => 0#7

end Sys2Proof.Machine
end

