-- ==== Sys2Proof/Machine/Operands.lean ====
section
/-! DEFINITION. The datapaths: the constants of 00_scope.md R6, the seed and shift of the accumulator
(40_decoder.md R53), the step core, and the encoder's length and byte patterns (41_encoder.md R70, R71). -/

namespace Sys2Proof.Machine

/-- `MAX_SCALAR` (R6). -/
def maxScalar : Nat := 0x10FFFF

/-- `SURR_LO` (R6). -/
def surrLo : Nat := 0xD800

/-- `SURR_HI` (R6). -/
def surrHi : Nat := 0xDFFF

/-- `REPLACEMENT`, U+FFFD (R6), as a decoder output. -/
def replacement : Acc := 0xFFFD#21

/-- U+FFFD as an operand of the encoder (42_reference_driver.md R83). -/
def replacementScalar : Scalar := 0xFFFD#32

/-- Who performs an operation issued to instance `k` (10_state.md R8). -/
def agentOf (i : Instr) (k : Nat) : Agent :=
  match i with
  | .decInit => .decoder k
  | .decStep _ => .decoder k
  | .decVstep _ => .decoder k
  | .decFinish => .decoder k
  | .encEncode _ => .encoder
  | .encLength _ => .encoder

/-- Whether an agent owns the registers of instance `k`: only decoder instance `k` itself does (R8). -/
def Agent.owns (a : Agent) (k : Nat) : Bool :=
  match a with
  | .decoder j => decide (j = k)
  | .encoder => false
  | .driver => false

/-- The seed of a new sequence, `zext_21(b AND SEED_MASK[c])` (R53). -/
def seed (b : Byte) (c : ByteClass) : Acc := (b &&& (seedMask c).setWidth 8).setWidth 21

/-- The shift of a continuation, `((a << 6) OR zext_21(b[5:0]))[20:0]` (R53): the shift keeps all bits, 27 of
them (00_scope.md R38), and the slice keeps the low 21. -/
def shiftIn (a : Acc) (b : Byte) : Acc :=
  ((a.setWidth 27 <<< 6) ||| (b.extractLsb' 0 6).setWidth 27).extractLsb' 0 21

/-- The step core (R53): the next state from the two tables, and the next accumulator. -/
def stepCore (s : DecState) (a : Acc) (b : Byte) : DecState × Acc :=
  let c := classRom b
  let s' := transRom s c
  (s', if s'.isReject then 0#21 else if s.isStart then seed b c else shiftIn a b)

/-- The step core of a bit-level implementation, over the state code and the tables of 20_memory.md R28. -/
def stepCoreBits (s : StateCode) (a : Acc) (b : Byte) : StateCode × Acc :=
  let c := classRomBits b
  let s' := transRomBits (s ++ c)
  (s', if s' = 1#4 then 0#21
       else if s = 0#4 ∨ s = 1#4 then (b &&& (seedMaskBits c).setWidth 8).setWidth 21
       else shiftIn a b)

/-- `enc_len(v)` (41_encoder.md R70), the cases in the rule's order. All comparisons are unsigned on 32
bits. -/
def encLen (v : Scalar) : Len :=
  if v.toNat ≤ 0x7F then 1#3
  else if v.toNat ≤ 0x7FF then 2#3
  else if surrLo ≤ v.toNat ∧ v.toNat ≤ surrHi then 0#3
  else if v.toNat ≤ 0xFFFF then 3#3
  else if v.toNat ≤ maxScalar then 4#3
  else 0#3

/-- A continuation byte `0x80 OR zext_8(v[lo+5:lo])` (R71). -/
def contByte (v : Scalar) (lo : Nat) : Byte := 0x80#8 ||| (v.extractLsb' lo 6).setWidth 8

/-- The byte `b0` of `ENC.ENCODE v` (R71). -/
def encB0 (v : Scalar) : Byte :=
  match (encLen v).toNat with
  | 1 => v.extractLsb' 0 8
  | 2 => 0xC0#8 ||| (v.extractLsb' 6 5).setWidth 8
  | 3 => 0xE0#8 ||| (v.extractLsb' 12 4).setWidth 8
  | 4 => 0xF0#8 ||| (v.extractLsb' 18 3).setWidth 8
  | _ => 0#8

/-- The byte `b1` (R71). -/
def encB1 (v : Scalar) : Byte :=
  match (encLen v).toNat with
  | 2 => contByte v 0
  | 3 => contByte v 6
  | 4 => contByte v 12
  | _ => 0#8

/-- The byte `b2` (R71). -/
def encB2 (v : Scalar) : Byte :=
  match (encLen v).toNat with
  | 3 => contByte v 0
  | 4 => contByte v 6
  | _ => 0#8

/-- The byte `b3` (R71). -/
def encB3 (v : Scalar) : Byte :=
  match (encLen v).toNat with
  | 4 => contByte v 0
  | _ => 0#8

end Sys2Proof.Machine
end

