-- ==== Sys2Proof/Machine/Flags.lean ====
section
/-! DEFINITION. The result bits (40_decoder.md R54 to R59, 41_encoder.md R71 to R73), the packed records
(30_encoding.md R46, R47), and the error kind a record reports (60_exceptions.md R93). The block has no
flags: the record is their analogue (10_state.md R17). -/

namespace Sys2Proof.Machine

/-- `done` of a step: the state after is `ACCEPT` (R55). -/
def doneBit (after : DecState) : Bool := after.isAccept

/-- `rej` of a step: the state after is `REJECT` (R55). -/
def rejBit (after : DecState) : Bool := after.isReject

/-- `err` of a step: the first `REJECT` of a reject run (R55, R59). -/
def errBit (before after : DecState) : Bool := after.isReject && !before.isReject

/-- `replay` of a step: a `REJECT` met in an IN-PROGRESS state (R55, R58). -/
def replayBit (before after : DecState) : Bool := after.isReject && before.inProgress

/-- `out` of a `DEC.STEP`: the decoded value if `done`, U+FFFD if `err`, absent otherwise (R55). -/
def stepOut (before after : DecState) (acc : Acc) : Option Acc :=
  if doneBit after then some acc else if errBit before after then some replacement else none

/-- The record of a step that went from `before` to `after` and hands out `out` (R55, R56). -/
def stepResult (before after : DecState) (out : Option Acc) : DecResult :=
  { state := after, done := doneBit after, rej := rejBit after, err := errBit before after,
    replay := replayBit before after, out := out }

/-- The record with every bit 0 and `STATE` = `ACCEPT` (R54); with `err` it is the record of `DEC.FINISH`
(R57). -/
def quietResult (err : Bool) : DecResult :=
  { state := .accept, done := false, rej := false, err := err, replay := false, out := none }

/-- The packed decoder record `dres[29:0]` (R46): `out` in 29:9, `out_valid` in 8, `replay` in 7, `err` in 6,
`rej` in 5, `done` in 4, the code of `STATE` in 3:0; `out` is 0 when absent. -/
def DecResult.pack (r : DecResult) : BitVec 30 :=
  (r.out.getD 0#21) ++ BitVec.ofBool r.out.isSome ++ BitVec.ofBool r.replay ++ BitVec.ofBool r.err ++
    BitVec.ofBool r.rej ++ BitVec.ofBool r.done ++ r.state.code

/-- The packed encoder record `eres[35:0]` (R47): `b3` in 35:28 down to `b0` in 11:4, `err` in 3, `len` in
2:0. -/
def EncResult.pack (r : EncResult) : BitVec 36 :=
  r.b3 ++ r.b2 ++ r.b1 ++ r.b0 ++ BitVec.ofBool r.err ++ r.len

/-- The byte sequence of an encoder record: `b0` to `b(len-1)`, in that order (R71). -/
def EncResult.bytes (r : EncResult) : List Byte := [r.b0, r.b1, r.b2, r.b3].take r.len.toNat

/-- The error kinds of the block (60_exceptions.md R93): E1 malformed sequence, E2 truncated sequence, E3
invalid scalar. E4 and E5 belong to the adapters (R99). The block holds no cause code: the kind is known
from which operation reported it. -/
inductive ErrorKind where
  | malformed
  | truncated
  | invalidScalar
deriving DecidableEq, Repr

/-- The error kind the record of an operation reports, if any (R93): a step reports E1 by `rej`, `DEC.FINISH`
E2 by `err`, an encoder operation E3 by `err`. -/
def errorKind (i : Instr) (r : Result) : Option ErrorKind :=
  match i, r with
  | .decStep _, .dec d => if d.rej then some .malformed else none
  | .decVstep _, .dec d => if d.rej then some .malformed else none
  | .decFinish, .dec d => if d.err then some .truncated else none
  | .encEncode _, .enc e => if e.err then some .invalidScalar else none
  | .encLength _, .enc e => if e.err then some .invalidScalar else none
  | _, _ => none

end Sys2Proof.Machine
end

