-- ==== Sys2Proof/Machine/Ops.lean ====
section
/-! DEFINITION. The named operations over the state: reading and writing the addressed instance, returning a
record, performing an operation of either unit, taking the next request, and the outputs the driver sees.
There is no exception to take and none to return from (60_exceptions.md R92, R101): an error is a record and
a state change, both given by the operation that meets it. -/

namespace Sys2Proof.Machine

/-- The pair (`STATE`, `ACC`) of the addressed instance, if it exists. -/
def State.selected (s : State) : Option DecInst := s.insts[s.sel]?

/-- Write the pair of the addressed instance: both registers at once (20_memory.md R31). -/
def State.putSelected (s : State) (d : DecInst) : State := { s with insts := s.insts.set s.sel d }

/-- Return a result record to the driver (10_state.md R16). -/
def State.returns (s : State) (r : Result) : State := { s with result := some r }

/-- Go on with what an operation left, if it answered a next state. -/
def andThen {α β : Type} (o : Host.Outcome α Fault Refusal) (f : α → Host.Outcome β Fault Refusal) :
    Host.Outcome β Fault Refusal :=
  match o with
  | .next a => f a
  | .fault r => .fault r
  | .refused r => .refused r

/-- Perform a decoder operation on the addressed instance: read the pair once, write it once, return one
record (R31, R33). An instance that does not exist performs nothing (log entry 5). -/
def decoderOp (f : DecInst → DecInst × DecResult) (s : State) : Host.Outcome State Fault Refusal :=
  match s.selected with
  | none => .refused .noSuchInstance
  | some d => .next ((s.putSelected (f d).1).returns (.dec (f d).2))

/-- Perform an encoder operation: no state is read or written, one record is returned (41_encoder.md R71). -/
def encoderOp (r : EncResult) (s : State) : Host.Outcome State Fault Refusal :=
  .next (s.returns (.enc r))

/-- The record the driver last got from a decoder instance. After a decoder operation it is that operation's
record; where the last record is none or the encoder's, the record with every bit 0. -/
def State.lastDec (s : State) : DecResult :=
  match s.result with
  | some (.dec r) => r
  | _ => quietResult false

/-- The record the driver last got from the encoder unit; where the last record is none or a decoder's, the
record with every bit 0. -/
def State.lastEnc (s : State) : EncResult :=
  match s.result with
  | some (.enc r) => r
  | _ => { len := 0#3, err := false, b0 := 0#8, b1 := 0#8, b2 := 0#8, b3 := 0#8 }

/-- The `STATE` output of instance `k`, visible to the driver at all times (10_state.md R10, 30_encoding.md
R45). -/
def State.stateOut (s : State) (k : Nat) : Option StateCode := (s.insts[k]?).map (fun d => d.state.code)

/-- The `ACC` output of instance `k`, visible to the driver at all times (R10). -/
def State.accOut (s : State) (k : Nat) : Option Acc := (s.insts[k]?).map (fun d => d.acc)

/-- The driver issues a request after all those it has issued before (20_memory.md R33). -/
def State.issue (s : State) (r : Request) : State := { s with pending := s.pending ++ [r] }

/-- Reset at run time: every instance of the machine to the start pair at once (70_reset_and_hazards.md R110,
R111). What was issued and the last record are gone, and instance 0 is addressed (log entry 7). -/
def State.resetAll (s : State) : State := State.resetOf s.insts.length

/-- The oldest request issued, and the rest (R33). -/
def State.fetch (s : State) : Option (Request × List Request) :=
  match s.pending with
  | [] => none
  | r :: rest => some (r, rest)

/-- Address instance `k`, leaving the requests `rest` to be performed later. -/
def State.accepts (s : State) (k : Nat) (rest : List Request) : State := { s with pending := rest, sel := k }

/-- The refusal of a reserved word (30_encoding.md R43). -/
def refusalOf : Reserved → Refusal
  | .opcode => .reservedOpcode
  | .operandOfFormatN => .reservedOperand
  | .operandOfFormatB => .reservedOperand

/-- The request of a table word for the instance now addressed, issued before all others. -/
def State.issueFirst (s : State) (w : ReqWord) : State :=
  { s with pending := { inst := s.sel, word := w } :: s.pending }

end Sys2Proof.Machine
end

