-- ==== Sys2Proof/Machine/Decoder.lean ====
section
/-! DEFINITION. The meanings of the decoder operations (40_decoder.md R54 to R57). For each, what it does to
one instance, and the operation on the addressed instance. -/

namespace Sys2Proof.Machine

/-- `DEC.INIT` on an instance (R54): `STATE` <- `ACCEPT`, `ACC` <- 0, a record of zeros, whatever the pair was
before. -/
def initInst (_ : DecInst) : DecInst × DecResult := (DecInst.start, quietResult false)

/-- `DEC.STEP b` on an instance (R55). -/
def stepInst (b : Byte) (d : DecInst) : DecInst × DecResult :=
  let n := stepCore d.state d.acc b
  ({ state := n.1, acc := n.2 }, stepResult d.state n.1 (stepOut d.state n.1 n.2))

/-- `DEC.VSTEP b` on an instance (R56): the same transition; `ACC` is neither read nor written; `out` is
absent. -/
def vstepInst (b : Byte) (d : DecInst) : DecInst × DecResult :=
  let s' := transRom d.state (classRom b)
  ({ state := s', acc := d.acc }, stepResult d.state s' none)

/-- `DEC.FINISH` on an instance (R57): `err` if a sequence was still owed bytes; then the start pair. -/
def finishInst (d : DecInst) : DecInst × DecResult := (DecInst.start, quietResult d.state.inProgress)

/-- `DEC.INIT` (R54). -/
def execDecInit (s : State) : Host.Outcome State Fault Refusal := decoderOp initInst s

/-- `DEC.STEP b` (R55). -/
def execDecStep (b : Byte) (s : State) : Host.Outcome State Fault Refusal := decoderOp (stepInst b) s

/-- `DEC.VSTEP b` (R56). -/
def execDecVstep (b : Byte) (s : State) : Host.Outcome State Fault Refusal := decoderOp (vstepInst b) s

/-- `DEC.FINISH` (R57). -/
def execDecFinish (s : State) : Host.Outcome State Fault Refusal := decoderOp finishInst s

end Sys2Proof.Machine
end

