-- ==== Sys2Proof/Machine/Encoder.lean ====
section
/-! DEFINITION. The meanings of the encoder operations (41_encoder.md R71, R72). -/

namespace Sys2Proof.Machine

/-- The record of `ENC.ENCODE v` (R71). -/
def encodeResult (v : Scalar) : EncResult :=
  { len := encLen v, err := decide (encLen v = 0#3), b0 := encB0 v, b1 := encB1 v, b2 := encB2 v,
    b3 := encB3 v }

/-- The record of `ENC.LENGTH v` (R72): the same `len` and `err`; every byte 0. -/
def lengthResult (v : Scalar) : EncResult :=
  { len := encLen v, err := decide (encLen v = 0#3), b0 := 0#8, b1 := 0#8, b2 := 0#8, b3 := 0#8 }

/-- `ENC.ENCODE v` (R71). -/
def execEncEncode (v : Scalar) (s : State) : Host.Outcome State Fault Refusal := encoderOp (encodeResult v) s

/-- `ENC.LENGTH v` (R72). -/
def execEncLength (v : Scalar) (s : State) : Host.Outcome State Fault Refusal := encoderOp (lengthResult v) s

end Sys2Proof.Machine
end

