-- ==== Sys2Proof/Machine/Dispatch.lean ====
section
/-! DEFINITION. One arm for each operation of the opcode map (30_encoding.md R41). -/

namespace Sys2Proof.Machine

def exec (i : Instr) (s : State) : Host.Outcome State Fault Refusal :=
  match i with
  | .decInit => Sys2Proof.Machine.execDecInit s
  | .decStep b => Sys2Proof.Machine.execDecStep b s
  | .decVstep b => Sys2Proof.Machine.execDecVstep b s
  | .decFinish => Sys2Proof.Machine.execDecFinish s
  | .encEncode v => Sys2Proof.Machine.execEncEncode v s
  | .encLength v => Sys2Proof.Machine.execEncLength v s

end Sys2Proof.Machine
end

