-- ==== Sys2Proof/Machine/Step.lean ====
section
/-! DEFINITION. One step of the machine: the oldest issued request is decoded and performed on the instance
it addresses, completely (20_memory.md R31, R33). -/

namespace Sys2Proof.Machine

/-- One step. With nothing issued the block holds its registers (60_exceptions.md R106, R107: log entry 6). A
reserved word is refused (30_encoding.md R43); every other word is performed. -/
def step (s : State) : Host.Outcome State Fault Refusal :=
  match s.fetch with
  | none => .next s
  | some (r, rest) =>
    match decode r.word with
    | .reserved why => .refused (refusalOf why)
    | .op i => exec i (s.accepts r.inst rest)

/-- `s` with the request of a table word issued before all others, to the instance now addressed, so that the
next step performs it (log entries 1, 9). -/
def State.withFetchWord (s : State) (nbits w : Nat) : State := s.issueFirst (reqWordOfTable nbits w)

end Sys2Proof.Machine
end

