-- ==== Sys2Proof/Machine/Asm.lean ====
section
/-! DEFINITION. The assembler notation of 30_encoding.md R50: one operation a line, its mnemonic followed by
its operand, if any; `;` starts a comment; numbers are hexadecimal with `0x`, or decimal. Lines of the
pseudo-operations (R51) are read as well. What R50 leaves open is log entry 8. -/

namespace Sys2Proof.Machine

/-- The operation of a checked line; none if its operand does not fit (R41, R42). -/
def instrOfRaw (r : RawOp) : Option Instr :=
  if RawOp.wf r then
    match r.op, r.operand with
    | .decInit, _ => some .decInit
    | .decFinish, _ => some .decFinish
    | .decStep, some n => some (.decStep (BitVec.ofNat 8 n))
    | .decVstep, some n => some (.decVstep (BitVec.ofNat 8 n))
    | .encEncode, some n => some (.encEncode (BitVec.ofNat 32 n))
    | .encLength, some n => some (.encLength (BitVec.ofNat 32 n))
    | _, none => none
  else none

/-- The text of a line before a comment (R50). -/
def stripComment (cs : List Char) : List Char := cs.takeWhile (fun c => c ≠ ';')

/-- The words of a line: what stands between spaces and tabs. `cur` is the word being read, last letter
first. -/
def wordsFrom (cur : List Char) : List Char → List (List Char)
  | [] => if cur.isEmpty then [] else [cur.reverse]
  | c :: cs =>
    if c = ' ' ∨ c = '\t' then
      if cur.isEmpty then wordsFrom [] cs else cur.reverse :: wordsFrom [] cs
    else wordsFrom (c :: cur) cs

/-- The value of a digit in a base of at most 16. -/
def digit (base : Nat) (c : Char) : Option Nat :=
  let n := c.toNat
  let v := if 48 ≤ n ∧ n ≤ 57 then n - 48
           else if 65 ≤ n ∧ n ≤ 70 then n - 55
           else if 97 ≤ n ∧ n ≤ 102 then n - 87
           else base
  if v < base then some v else none

/-- The number the digits spell, most significant first, after `acc`. -/
def digits (base : Nat) (acc : Nat) : List Char → Option Nat
  | [] => some acc
  | c :: cs =>
    match digit base c with
    | some v => digits base (acc * base + v) cs
    | none => none

/-- A number: hexadecimal with `0x`, or decimal (R50); at least one digit. -/
def number (cs : List Char) : Option Nat :=
  match cs with
  | [] => none
  | ['0', 'x'] => none
  | '0' :: 'x' :: ds => digits 16 0 ds
  | ds => digits 10 0 ds

/-- All the numbers of a list of words, if every word is one. -/
def numbers : List (List Char) → Option (List Nat)
  | [] => some []
  | w :: ws =>
    match number w, numbers ws with
    | some n, some ns => some (n :: ns)
    | _, _ => none

/-- The operation a mnemonic names (R41). -/
def opcodeOf (w : List Char) : Option Opcode :=
  if w = "DEC.INIT".toList then some .decInit
  else if w = "DEC.STEP".toList then some .decStep
  else if w = "DEC.VSTEP".toList then some .decVstep
  else if w = "DEC.FINISH".toList then some .decFinish
  else if w = "ENC.ENCODE".toList then some .encEncode
  else if w = "ENC.LENGTH".toList then some .encLength
  else none

/-- A list of bytes, if every number is below 2^8. -/
def bytesOf (ns : List Nat) : Option (List Byte) :=
  if ns.all (fun n => n < 2 ^ 8) then some (ns.map (BitVec.ofNat 8)) else none

/-- A list of scalars, if every number is below 2^32. -/
def scalarsOf (ns : List Nat) : Option (List Scalar) :=
  if ns.all (fun n => n < 2 ^ 32) then some (ns.map (BitVec.ofNat 32)) else none

/-- The one byte of a list of numbers. -/
def oneByte (ns : List Nat) : Option Byte :=
  match ns with
  | [n] => if n < 2 ^ 8 then some (BitVec.ofNat 8 n) else none
  | _ => none

/-- The one scalar of a list of numbers. -/
def oneScalar (ns : List Nat) : Option Scalar :=
  match ns with
  | [n] => if n < 2 ^ 32 then some (BitVec.ofNat 32 n) else none
  | _ => none

/-- The pseudo-operation a word and its numbers spell (R51). -/
def pseudoOf (w : List Char) (ns : List Nat) : Option Pseudo :=
  if w = "DEC.FEED".toList then (oneByte ns).map .decFeed
  else if w = "DEC.VFEED".toList then (oneByte ns).map .decVfeed
  else if w = "DEC.STRING".toList then (bytesOf ns).map .decString
  else if w = "DEC.VSTRING".toList then (bytesOf ns).map .decVstring
  else if w = "ENC.SUBST".toList then (oneScalar ns).map .encSubst
  else if w = "ENC.STRING".toList then (scalarsOf ns).map .encString
  else none

/-- What a line says. -/
inductive AsmLine where
  /-- Nothing, or only a comment. -/
  | blank
  /-- An operation of the block. -/
  | op (i : Instr)
  /-- A pseudo-operation. -/
  | pseudo (p : Pseudo)
  /-- Not a line of the notation. -/
  | bad
deriving DecidableEq, Repr

/-- The meaning of a line's words. -/
def lineOfWords (ws : List (List Char)) : AsmLine :=
  match ws with
  | [] => .blank
  | w :: args =>
    match numbers args, opcodeOf w with
    | none, _ => .bad
    | some [], some op => ((instrOfRaw { op := op, operand := none }).map .op).getD .bad
    | some [n], some op => ((instrOfRaw { op := op, operand := some n }).map .op).getD .bad
    | some _, some _ => .bad
    | some ns, none => ((pseudoOf w ns).map .pseudo).getD .bad

/-- A line of assembler text (R50). -/
def parseLine (cs : List Char) : AsmLine := lineOfWords (wordsFrom [] (stripComment cs))

/-- The request word of a line, if it is an operation (R50: "`{op, zext_32(operand)}`"). -/
def assemble (cs : List Char) : Option ReqWord :=
  match parseLine cs with
  | .op i => some (encode i)
  | _ => none

end Sys2Proof.Machine
end

