-- ==== Sys2Proof/Machine/Driver.lean ====
section
/-! DEFINITION. The reference driver (42_reference_driver.md R80 to R83), the other drivers the spec names
for contrast, and the pseudo-operations (30_encoding.md R51). The driver is not part of the block (00_scope.md
R3): everything here is a function over `exec`, and `exec` and `step` know nothing of it. -/

namespace Sys2Proof.Machine

/-- Issue operations one after another to the addressed instance and the encoder unit, each on the state the
one before left (20_memory.md R33), and collect the records. -/
def issueAll : List Instr → State → Host.Outcome (State × List Result) Fault Refusal
  | [], s => .next (s, [])
  | i :: is, s =>
    andThen (exec i s) fun t =>
      andThen (issueAll is t) fun ur => .next (ur.1, t.result.toList ++ ur.2)

/-! The decode side -/

/-- What a driver does after a step. `obey` is the reference driver (R80); the others stand in the spec for
comparison. -/
inductive Policy where
  /-- Present the same byte again exactly when `replay` = 1 (R80, R81). -/
  | obey
  /-- Present the same byte again after every first `REJECT` of a run (40_decoder.md R58, 95_test_vectors.md
  X5). -/
  | replayFirstReject
  /-- Never present a byte again: breaks the duty of 70_reset_and_hazards.md R113. -/
  | neverReplay
  /-- Obey `replay`, and issue `DEC.INIT` after every `REJECT` (R117). -/
  | initAfterReject
deriving DecidableEq, Repr

/-- What a decode driver holds (R80, R81): the cursor, the scalars handed out, the two counts; and the number
of steps issued and of results with `rej` = 1 (R82). -/
structure Driver where
  cursor : Nat
  outs : List Acc
  nOk : Nat
  nErr : Nat
  steps : Nat
  nRej : Nat
deriving DecidableEq, Repr

/-- The driver before its first step (R81). -/
def Driver.start : Driver := { cursor := 0, outs := [], nOk := 0, nErr := 0, steps := 0, nRej := 0 }

/-- Whether a driver presents the same byte again. -/
def Policy.again (p : Policy) (r : DecResult) : Bool :=
  match p with
  | .obey => r.replay
  | .replayFirstReject => r.err
  | .neverReplay => false
  | .initAfterReject => r.replay

/-- The driver after it got the record of a step (R81, R82): `out`, where present, is appended; `done`, `err`
and `rej` are counted; the cursor advances unless the byte is to be presented again (R80). -/
def Driver.take (d : Driver) (p : Policy) (r : DecResult) : Driver :=
  { cursor := if p.again r then d.cursor else d.cursor + 1
    outs := d.outs ++ r.out.toList
    nOk := d.nOk + r.done.toNat
    nErr := d.nErr + r.err.toNat
    steps := d.steps + 1
    nRej := d.nRej + r.rej.toNat }

/-- Present one byte: the step, and for `initAfterReject` the `DEC.INIT` after a `REJECT`. -/
def presentByte (op : Byte → Instr) (p : Policy) (b : Byte) (s : State) (d : Driver) :
    Host.Outcome (State × Driver) Fault Refusal :=
  andThen (exec (op b) s) fun t =>
    if p = .initAfterReject ∧ t.lastDec.rej = true then
      andThen (exec .decInit t) fun u => .next (u, d.take p t.lastDec)
    else .next (t, d.take p t.lastDec)

/-- The loop of R81, `while i < n`, for at most so many steps. -/
def decodeLoop (op : Byte → Instr) (p : Policy) (bs : List Byte) :
    Nat → State → Driver → Host.Outcome (State × Driver) Fault Refusal
  | 0, s, d => .next (s, d)
  | n + 1, s, d =>
    match bs[d.cursor]? with
    | none => .next (s, d)
    | some b => andThen (presentByte op p b s d) fun sd => decodeLoop op p bs n sd.1 sd.2

/-- `DEC.FINISH` at the end of the input; a truncated tail is one error more, and nothing is appended (R81). -/
def finishStream (s : State) (d : Driver) : Host.Outcome (State × Driver) Fault Refusal :=
  andThen (exec .decFinish s) fun t => .next (t, { d with nErr := d.nErr + t.lastDec.err.toNat })

/-- A whole stream (R81): `DEC.INIT`, the loop, `DEC.FINISH`. The loop "ends after at most `2n` steps". -/
def runStream (op : Byte → Instr) (p : Policy) (bs : List Byte) (s : State) :
    Host.Outcome (State × Driver) Fault Refusal :=
  andThen (exec .decInit s) fun t =>
    andThen (decodeLoop op p bs (2 * bs.length) t Driver.start) fun ud => finishStream ud.1 ud.2

/-- `decode_stream(B)` (R81): the state after, and in the driver `outs`, `nOk`, `nErr`. -/
def decodeStream (bs : List Byte) (s : State) : Host.Outcome (State × Driver) Fault Refusal :=
  runStream .decStep .obey bs s

/-- `validate_stream(B)` (R81): the same with `DEC.VSTEP`; nothing is handed out. -/
def validateStream (bs : List Byte) (s : State) : Host.Outcome (State × Driver) Fault Refusal :=
  runStream .decVstep .obey bs s

/-! The encode side -/

/-- What an encode driver holds (R83): the bytes emitted, their number, and the two counts. -/
structure EncDriver where
  bytes : List Byte
  nBytes : Nat
  nOk : Nat
  nErr : Nat
deriving DecidableEq, Repr

/-- The encode driver before its first operation (R83). -/
def EncDriver.start : EncDriver := { bytes := [], nBytes := 0, nOk := 0, nErr := 0 }

/-- The body of the loop of R83, `ENC.SUBST`: encode `v`; if that fails, count it and encode U+FFFD in its
place. The answer is the state, the record whose bytes are emitted, and whether `v` failed. -/
def substitute (op : Scalar → Instr) (v : Scalar) (s : State) :
    Host.Outcome (State × EncResult × Bool) Fault Refusal :=
  andThen (exec (op v) s) fun t =>
    if t.lastEnc.err then andThen (exec (op replacementScalar) t) fun u => .next (u, u.lastEnc, true)
    else .next (t, t.lastEnc, false)

/-- The loop of R83 over a list of scalars; `emit` says which bytes of a record are emitted. -/
def encodeLoop (op : Scalar → Instr) (emit : EncResult → List Byte) :
    List Scalar → State → EncDriver → Host.Outcome (State × EncDriver) Fault Refusal
  | [], s, d => .next (s, d)
  | v :: vs, s, d =>
    andThen (substitute op v s) fun tr =>
      encodeLoop op emit vs tr.1
        { bytes := d.bytes ++ emit tr.2.1
          nBytes := d.nBytes + tr.2.1.len.toNat
          nOk := d.nOk + (!tr.2.2).toNat
          nErr := d.nErr + tr.2.2.toNat }

/-- `encode_stream(V)` (R83). -/
def encodeStream (vs : List Scalar) (s : State) : Host.Outcome (State × EncDriver) Fault Refusal :=
  encodeLoop .encEncode EncResult.bytes vs s EncDriver.start

/-- `length_stream(V)` (R83): the same with `ENC.LENGTH`; the total byte count in place of the bytes. -/
def lengthStream (vs : List Scalar) (s : State) : Host.Outcome (State × EncDriver) Fault Refusal :=
  encodeLoop .encLength (fun _ => []) vs s EncDriver.start

/-! The pseudo-operations -/

/-- `DEC.FEED b` and `DEC.VFEED b` (30_encoding.md R51): the step; then, only if its record has `replay` = 1,
the same step once more. -/
def feed (op : Byte → Instr) (b : Byte) (s : State) : Host.Outcome (State × List Result) Fault Refusal :=
  andThen (exec (op b) s) fun t =>
    if t.lastDec.replay then
      andThen (exec (op b) t) fun u => .next (u, t.result.toList ++ u.result.toList)
    else .next (t, t.result.toList)

/-- The feeds of `DEC.STRING` and `DEC.VSTRING`, one for each byte in order (R51). -/
def feedAll (op : Byte → Instr) : List Byte → State → Host.Outcome (State × List Result) Fault Refusal
  | [], s => .next (s, [])
  | b :: bs, s =>
    andThen (feed op b s) fun tr =>
      andThen (feedAll op bs tr.1) fun ur => .next (ur.1, tr.2 ++ ur.2)

/-- `DEC.STRING` and `DEC.VSTRING` (R51): `DEC.INIT`, the feeds, `DEC.FINISH`. -/
def feedString (op : Byte → Instr) (bs : List Byte) (s : State) :
    Host.Outcome (State × List Result) Fault Refusal :=
  andThen (exec .decInit s) fun t =>
    andThen (feedAll op bs t) fun ur =>
      andThen (exec .decFinish ur.1) fun w => .next (w, t.result.toList ++ ur.2 ++ w.result.toList)

/-- `ENC.SUBST v` (R51): `ENC.ENCODE v`; then, only if its record has `err` = 1, `ENC.ENCODE 0xFFFD`. -/
def encSubst (v : Scalar) (s : State) : Host.Outcome (State × List Result) Fault Refusal :=
  andThen (exec (.encEncode v) s) fun t =>
    if t.lastEnc.err then
      andThen (exec (.encEncode replacementScalar) t) fun u => .next (u, t.result.toList ++ u.result.toList)
    else .next (t, t.result.toList)

/-- `ENC.STRING` (R51): an `ENC.SUBST` for each scalar in order. -/
def encString : List Scalar → State → Host.Outcome (State × List Result) Fault Refusal
  | [], s => .next (s, [])
  | v :: vs, s =>
    andThen (encSubst v s) fun tr =>
      andThen (encString vs tr.1) fun ur => .next (ur.1, tr.2 ++ ur.2)

/-- A pseudo-operation (R51): the state after the operations it issues, and their records in order. -/
def runPseudo (p : Pseudo) (s : State) : Host.Outcome (State × List Result) Fault Refusal :=
  match p with
  | .decFeed b => feed .decStep b s
  | .decVfeed b => feed .decVstep b s
  | .decString bs => feedString .decStep bs s
  | .decVstring bs => feedString .decVstep bs s
  | .encSubst v => encSubst v s
  | .encString vs => encString vs s

end Sys2Proof.Machine
end

