-- ==== Sys2Proof/Safety.lean ====
section
/-! DEFINITION. What counts as a safe run and the terms claims are made in: scalar values, the reachable
pairs of 10_state.md R15, legal states and streams, well-formed sequences (30_encoding.md R48, 40_decoder.md
R62), and reject runs (60_exceptions.md R95). -/

namespace Sys2Proof.Machine

/-- A scalar value (00_scope.md R6, R39): at most 0x10FFFF and not a surrogate. -/
def isScalar (n : Nat) : Bool := decide (n ≤ maxScalar) && !(decide (surrLo ≤ n) && decide (n ≤ surrHi))

/-- The pairs (`STATE`, `ACC`) of the table of R15. -/
def DecInst.tabled (d : DecInst) : Bool :=
  let a := d.acc.toNat
  match d.state with
  | .accept => isScalar a
  | .reject => decide (a = 0)
  | .cont1 => decide (0x2 ≤ a ∧ a ≤ 0x35F) || decide (0x380 ≤ a ∧ a ≤ 0x43FF)
  | .cont2 => decide (0x1 ≤ a ∧ a ≤ 0xC) || decide (0xE ≤ a ∧ a ≤ 0x10F)
  | .cont2E0 => decide (a = 0x0)
  | .cont2ED => decide (a = 0xD)
  | .cont3 => decide (0x1 ≤ a ∧ a ≤ 0x3)
  | .cont3F0 => decide (a = 0x0)
  | .cont3F4 => decide (a = 0x4)

/-- Every instance holds a pair of the table of R15, and no `DEC.VSTEP` waits to be performed: R15 speaks of
machines to which "only `DEC.INIT`, `DEC.STEP` and `DEC.FINISH`" are issued. -/
def State.tabled (s : State) : Bool :=
  s.insts.all DecInst.tabled &&
    s.pending.all fun r => match decode r.word with
      | .op (.decVstep _) => false
      | _ => true

/-- A legal state: at least one instance (`N_INST` >= 1, 00_scope.md R7), and every issued request legal for a
machine of that many instances (42_reference_driver.md R90). -/
def State.legal (s : State) : Bool :=
  decide (1 ≤ s.insts.length) && s.pending.all (Request.wf s.insts.length)

/-- So many steps one after another, and the records they return, in order. -/
def State.run : Nat → State → Host.Outcome (State × List Result) Fault Refusal
  | 0, s => .next (s, [])
  | n + 1, s =>
    andThen (step s) fun t =>
      andThen (State.run n t) fun ur => .next (ur.1, t.result.toList ++ ur.2)

/-- A continuation byte, 0x80 to 0xBF (00_scope.md R39). -/
def isCont (b : Byte) : Bool := decide (0x80 ≤ b.toNat ∧ b.toNat ≤ 0xBF)

/-- A byte within a range, both ends included. -/
def inRange (lo hi : Nat) (b : Byte) : Bool := decide (lo ≤ b.toNat ∧ b.toNat ≤ hi)

/-- The rows of the table of R62: the well-formed sequences. -/
def wfSeq : List Byte → Bool
  | [a] => inRange 0x00 0x7F a
  | [a, b] => inRange 0xC2 0xDF a && isCont b
  | [a, b, c] =>
    (inRange 0xE0 0xE0 a && inRange 0xA0 0xBF b && isCont c) ||
    (inRange 0xE1 0xEC a && isCont b && isCont c) ||
    (inRange 0xED 0xED a && inRange 0x80 0x9F b && isCont c) ||
    (inRange 0xEE 0xEF a && isCont b && isCont c)
  | [a, b, c, d] =>
    (inRange 0xF0 0xF0 a && inRange 0x90 0xBF b && isCont c && isCont d) ||
    (inRange 0xF1 0xF3 a && isCont b && isCont c && isCont d) ||
    (inRange 0xF4 0xF4 a && inRange 0x80 0x8F b && isCont c && isCont d)
  | _ => false

/-- The payload bits of a sequence read as one number (30_encoding.md R48), most significant first. -/
def payload : List Byte → Nat
  | [a] => a.toNat % 128
  | [a, b] => a.toNat % 32 * 64 + b.toNat % 64
  | [a, b, c] => a.toNat % 16 * 4096 + b.toNat % 64 * 64 + c.toNat % 64
  | [a, b, c, d] => a.toNat % 8 * 262144 + b.toNat % 64 * 4096 + c.toNat % 64 * 64 + d.toNat % 64
  | _ => 0

/-- The decoder records among records. -/
def decRecords (rs : List Result) : List DecResult :=
  rs.filterMap fun r => match r with
    | .dec d => some d
    | .enc _ => none

/-- The records of a sequence the decoder accepts (R62): the last has `done` = 1 and no other has `done` or
`rej`. -/
def acceptedOnce : List DecResult → Bool
  | [] => false
  | [r] => r.done
  | r :: rs => !r.done && !r.rej && acceptedOnce rs

/-- The run-length form of a list of verdicts: maximal groups of equal neighbours with their lengths. -/
def runLengths : List Bool → List (Bool × Nat)
  | [] => []
  | x :: xs =>
    match runLengths xs with
    | [] => [(x, 1)]
    | (y, n) :: rest => if x = y then (y, n + 1) :: rest else (x, 1) :: (y, n) :: rest

/-- The number of reject runs among consecutive steps: maximal runs of `rej` = 1 (R95). -/
def rejectRuns (rejs : List Bool) : Nat := ((runLengths rejs).filter (fun g => g.1)).length

end Sys2Proof.Machine
end

