-- ==== Sys2Proof/Certificates/Slice0/Obligations.lean ====
section
/-! DEFINITION. The statements for the provers. Each names the rule of spec/ it formalises. A statement about
a decoder operation assumes that the addressed instance exists, `s.insts[s.sel]? = some d`: the machine has any
number of instances, each at any of the 9 x 2^21 pairs. Where a statement gives the whole next state as an
update of `s`, everything it does not name is unchanged: the other instances, `sel`, `pending`. -/

open Sys2Proof Sys2Proof.Machine

/-! The six operations: what each does, what it leaves alone, and that it always completes -/

/-- 40_decoder.md R54. `DEC.INIT` on any instance in any state: `STATE` <- `ACCEPT`, `ACC` <- 0, a record whose
30 bits are all 0; nothing else changes. Its word is 0x000000000. -/
def Obligations.DecInitStartsTheStream : Prop :=
  encode .decInit = 0x000000000#36 ∧
  ∀ (s : State) (d : DecInst), s.insts[s.sel]? = some d →
    ∃ r : DecResult,
      exec .decInit s = .next { s with
        insts := s.insts.set s.sel { state := .accept, acc := 0#21 }
        result := some (.dec r) } ∧
      r = { state := .accept, done := false, rej := false, err := false, replay := false, out := none } ∧
      DecResult.pack r = 0#30

/-- 40_decoder.md R53, R55. `DEC.STEP b` on any pair: the next `STATE` is the table's; the next `ACC` is 0 on
`REJECT`, the masked byte in a START state, and otherwise the old value times 64 plus the low six bits of the
byte, cut to 21 bits; the record is the rule's; nothing else changes. Its word is `{0x1, 0x000000, b}`. -/
def Obligations.DecStepResult : Prop :=
  ∀ b : Byte,
    encode (.decStep b) = 0x1#4 ++ 0x000000#24 ++ b ∧
    ∀ (s : State) (d : DecInst) (s' : DecState) (a' : Acc), s.insts[s.sel]? = some d →
      s' = transRom d.state (classRom b) →
      a' = (if s' = .reject then 0#21
            else if d.state = .accept ∨ d.state = .reject then
              (b &&& (seedMask (classRom b)).setWidth 8).setWidth 21
            else BitVec.ofNat 21 (d.acc.toNat * 64 + b.toNat % 64)) →
      exec (.decStep b) s = .next { s with
        insts := s.insts.set s.sel { state := s', acc := a' }
        result := some (.dec {
          state := s'
          done := decide (s' = .accept)
          rej := decide (s' = .reject)
          err := decide (s' = .reject ∧ d.state ≠ .reject)
          replay := decide (s' = .reject ∧ d.state ≠ .accept ∧ d.state ≠ .reject)
          out := if s' = .accept then some a'
                 else if s' = .reject ∧ d.state ≠ .reject then some 0xFFFD#21
                 else none }) }

/-- 40_decoder.md R56. `DEC.VSTEP b` on any pair: the same next `STATE` and bits; `ACC` unchanged; `out` absent;
nothing else changes. Its word is `{0x2, 0x000000, b}`. -/
def Obligations.DecVstepResult : Prop :=
  ∀ b : Byte,
    encode (.decVstep b) = 0x2#4 ++ 0x000000#24 ++ b ∧
    ∀ (s : State) (d : DecInst) (s' : DecState), s.insts[s.sel]? = some d →
      s' = transRom d.state (classRom b) →
      exec (.decVstep b) s = .next { s with
        insts := s.insts.set s.sel { state := s', acc := d.acc }
        result := some (.dec {
          state := s'
          done := decide (s' = .accept)
          rej := decide (s' = .reject)
          err := decide (s' = .reject ∧ d.state ≠ .reject)
          replay := decide (s' = .reject ∧ d.state ≠ .accept ∧ d.state ≠ .reject)
          out := none }) }

/-- 40_decoder.md R57. `DEC.FINISH` on any pair: `STATE` <- `ACCEPT`, `ACC` <- 0; only `err` can be 1, and it is
exactly when the state before was neither `ACCEPT` nor `REJECT`; nothing else changes. Its word is
0x300000000. -/
def Obligations.DecFinishResult : Prop :=
  encode .decFinish = 0x300000000#36 ∧
  ∀ (s : State) (d : DecInst), s.insts[s.sel]? = some d →
    exec .decFinish s = .next { s with
      insts := s.insts.set s.sel { state := .accept, acc := 0#21 }
      result := some (.dec {
        state := .accept, done := false, rej := false
        err := decide (d.state ≠ .accept ∧ d.state ≠ .reject)
        replay := false, out := none }) }

/-- 41_encoder.md R70, R71. `ENC.ENCODE v` in any state, for every 32-bit `v`: only a record is returned, and in
each of the six ranges its length, its error bit and its four bytes are the rule's, written as numbers. Its
word is `{0x4, v}`. The spec marks the byte patterns as its own inference: "The patterns above are `[derived]`". -/
def Obligations.EncEncodeResult : Prop :=
  ∀ v : Scalar,
    encode (.encEncode v) = 0x4#4 ++ v ∧
    ∀ s : State, ∃ e : EncResult,
      exec (.encEncode v) s = .next { s with result := some (.enc e) } ∧
      (v.toNat ≤ 0x7F →
        e.len = 1#3 ∧ e.err = false ∧ e.b0.toNat = v.toNat ∧ e.b1 = 0#8 ∧ e.b2 = 0#8 ∧ e.b3 = 0#8) ∧
      (0x80 ≤ v.toNat ∧ v.toNat ≤ 0x7FF →
        e.len = 2#3 ∧ e.err = false ∧ e.b0.toNat = 0xC0 + v.toNat / 64 ∧ e.b1.toNat = 0x80 + v.toNat % 64 ∧
        e.b2 = 0#8 ∧ e.b3 = 0#8) ∧
      (0xD800 ≤ v.toNat ∧ v.toNat ≤ 0xDFFF →
        e = { len := 0#3, err := true, b0 := 0#8, b1 := 0#8, b2 := 0#8, b3 := 0#8 }) ∧
      (0x800 ≤ v.toNat ∧ v.toNat ≤ 0xFFFF ∧ ¬(0xD800 ≤ v.toNat ∧ v.toNat ≤ 0xDFFF) →
        e.len = 3#3 ∧ e.err = false ∧ e.b0.toNat = 0xE0 + v.toNat / 4096 ∧
        e.b1.toNat = 0x80 + v.toNat / 64 % 64 ∧ e.b2.toNat = 0x80 + v.toNat % 64 ∧ e.b3 = 0#8) ∧
      (0x10000 ≤ v.toNat ∧ v.toNat ≤ 0x10FFFF →
        e.len = 4#3 ∧ e.err = false ∧ e.b0.toNat = 0xF0 + v.toNat / 262144 ∧
        e.b1.toNat = 0x80 + v.toNat / 4096 % 64 ∧ e.b2.toNat = 0x80 + v.toNat / 64 % 64 ∧
        e.b3.toNat = 0x80 + v.toNat % 64) ∧
      (0x110000 ≤ v.toNat →
        e = { len := 0#3, err := true, b0 := 0#8, b1 := 0#8, b2 := 0#8, b3 := 0#8 })

/-- 41_encoder.md R72. `ENC.LENGTH v` in any state, for every 32-bit `v`: only a record is returned, with the
length of R70's six ranges, `err` exactly when it is 0, and bytes 0; and its `len` and `err` are those of
`ENC.ENCODE v`. Its word is `{0x5, v}`. -/
def Obligations.EncLengthResult : Prop :=
  ∀ v : Scalar,
    encode (.encLength v) = 0x5#4 ++ v ∧
    ∀ (s : State) (n : Nat),
      n = (if v.toNat ≤ 0x7F then 1 else if v.toNat ≤ 0x7FF then 2
           else if 0xD800 ≤ v.toNat ∧ v.toNat ≤ 0xDFFF then 0
           else if v.toNat ≤ 0xFFFF then 3 else if v.toNat ≤ 0x10FFFF then 4 else 0) →
      exec (.encLength v) s = .next { s with
        result := some (.enc {
          len := BitVec.ofNat 3 n, err := decide (n = 0), b0 := 0#8, b1 := 0#8, b2 := 0#8, b3 := 0#8 }) } ∧
      ∃ e : EncResult, exec (.encEncode v) s = .next { s with result := some (.enc e) } ∧
        e.len = BitVec.ofNat 3 n ∧ e.err = decide (n = 0)

/-! The constant tables -/

/-- 20_memory.md R21. `CLASS_ROM`: each class is given to exactly the bytes of its range. The
spec marks one range as its own inference: "The range of `LEAD3` is `[derived]`". -/
def Obligations.ClassRomRanges : Prop :=
  ∀ b : Byte,
    (classRom b = .ascii ↔ b.toNat ≤ 0x7F) ∧
    (classRom b = .contLo ↔ 0x80 ≤ b.toNat ∧ b.toNat ≤ 0x8F) ∧
    (classRom b = .contMid ↔ 0x90 ≤ b.toNat ∧ b.toNat ≤ 0x9F) ∧
    (classRom b = .contHi ↔ 0xA0 ≤ b.toNat ∧ b.toNat ≤ 0xBF) ∧
    (classRom b = .invOverlong ↔ b.toNat = 0xC0 ∨ b.toNat = 0xC1) ∧
    (classRom b = .lead2 ↔ 0xC2 ≤ b.toNat ∧ b.toNat ≤ 0xDF) ∧
    (classRom b = .lead3E0 ↔ b.toNat = 0xE0) ∧
    (classRom b = .lead3 ↔ (0xE1 ≤ b.toNat ∧ b.toNat ≤ 0xEC) ∨ b.toNat = 0xEE ∨ b.toNat = 0xEF) ∧
    (classRom b = .lead3ED ↔ b.toNat = 0xED) ∧
    (classRom b = .lead4F0 ↔ b.toNat = 0xF0) ∧
    (classRom b = .lead4 ↔ 0xF1 ≤ b.toNat ∧ b.toNat ≤ 0xF3) ∧
    (classRom b = .lead4F4 ↔ b.toNat = 0xF4) ∧
    (classRom b = .invTooLarge ↔ 0xF5 ≤ b.toNat ∧ b.toNat ≤ 0xFF)

/-- 20_memory.md R23. `TRANS_ROM`, cell by cell, against the rule's table in numeric codes: row = state code 0 to
8, column = class code 0 to 12. -/
def Obligations.TransRomCells : Prop :=
  ∀ (s : DecState) (c : ByteClass),
    ([[0, 1, 1, 1, 2, 3, 4, 5, 6, 7, 8, 1, 1],
      [0, 1, 1, 1, 2, 3, 4, 5, 6, 7, 8, 1, 1],
      [1, 0, 0, 0, 1, 1, 1, 1, 1, 1, 1, 1, 1],
      [1, 2, 2, 2, 1, 1, 1, 1, 1, 1, 1, 1, 1],
      [1, 1, 1, 2, 1, 1, 1, 1, 1, 1, 1, 1, 1],
      [1, 2, 2, 1, 1, 1, 1, 1, 1, 1, 1, 1, 1],
      [1, 3, 3, 3, 1, 1, 1, 1, 1, 1, 1, 1, 1],
      [1, 1, 3, 3, 1, 1, 1, 1, 1, 1, 1, 1, 1],
      [1, 3, 1, 1, 1, 1, 1, 1, 1, 1, 1, 1, 1]][s.code.toNat]?.bind (·[c.code.toNat]?)) =
    some (transRom s c).code.toNat

/-- 20_memory.md R25. `SEED_MASK`, class by class. The spec marks the masks as its own inference: "The values are
`[derived]`". -/
def Obligations.SeedMaskCells : Prop :=
  seedMask .ascii = 0x7F#7 ∧ seedMask .lead2 = 0x1F#7 ∧
  (∀ c, c = .lead3 ∨ c = .lead3E0 ∨ c = .lead3ED → seedMask c = 0x0F#7) ∧
  (∀ c, c = .lead4 ∨ c = .lead4F0 ∨ c = .lead4F4 → seedMask c = 0x07#7) ∧
  (∀ c, c = .contLo ∨ c = .contMid ∨ c = .contHi ∨ c = .invOverlong ∨ c = .invTooLarge → seedMask c = 0#7)

/-- 20_memory.md R24. The seven rejections, at the level of operations: in every state a lead byte 0xC0, 0xC1 or
0xF5 to 0xFF is rejected; in a START state a bare continuation byte is; after E0, ED, F0 and F4 taken in a START
state a continuation byte outside the lead's range is; and after any bytes, `DEC.FINISH` reports an error exactly
when continuation bytes are still owed. Both kinds of step reject alike. -/
def Obligations.DemandedRejections : Prop :=
  ∀ op : Byte → Instr, (op = .decStep ∨ op = .decVstep) →
  ∀ (s : State) (d : DecInst) (b : Byte), s.insts[s.sel]? = some d →
    ∃ (t : State) (r : DecResult), exec (op b) s = .next t ∧ t.result = some (.dec r) ∧
      (b.toNat = 0xC0 ∨ b.toNat = 0xC1 ∨ 0xF5 ≤ b.toNat → r.rej = true ∧ r.state = .reject) ∧
      (d.state.isStart = true → 0x80 ≤ b.toNat ∧ b.toNat ≤ 0xBF → r.rej = true ∧ r.state = .reject) ∧
      (d.state.isStart = true → ∀ c : Byte, 0x80 ≤ c.toNat ∧ c.toNat ≤ 0xBF →
        (b.toNat = 0xE0 ∧ ¬(0xA0 ≤ c.toNat ∧ c.toNat ≤ 0xBF)) ∨
        (b.toNat = 0xED ∧ ¬(0x80 ≤ c.toNat ∧ c.toNat ≤ 0x9F)) ∨
        (b.toNat = 0xF0 ∧ ¬(0x90 ≤ c.toNat ∧ c.toNat ≤ 0xBF)) ∨
        (b.toNat = 0xF4 ∧ ¬(0x80 ≤ c.toNat ∧ c.toNat ≤ 0x8F)) →
        ∃ (u : State) (q : DecResult), exec (op c) t = .next u ∧ u.result = some (.dec q) ∧
          q.rej = true ∧ q.state = .reject) ∧
      ∃ (u : State) (q : DecResult), exec .decFinish t = .next u ∧ u.result = some (.dec q) ∧
        (q.err = true ↔ 0 < r.state.owed)

/-- 10_state.md R12. The seven IN-PROGRESS states: which lead bytes enter each from a START state, how many
continuation bytes each owes, which next byte it takes, and that the state after it is the unrestricted one that
owes one byte fewer. -/
def Obligations.InProgressStates : Prop :=
  ∀ row ∈ ([(.cont1, 1, 0x80, 0xBF, [(0xC2, 0xDF)], .accept),
            (.cont2, 2, 0x80, 0xBF, [(0xE1, 0xEC), (0xEE, 0xEE), (0xEF, 0xEF)], .cont1),
            (.cont2E0, 2, 0xA0, 0xBF, [(0xE0, 0xE0)], .cont1),
            (.cont2ED, 2, 0x80, 0x9F, [(0xED, 0xED)], .cont1),
            (.cont3, 3, 0x80, 0xBF, [(0xF1, 0xF3)], .cont2),
            (.cont3F0, 3, 0x90, 0xBF, [(0xF0, 0xF0)], .cont2),
            (.cont3F4, 3, 0x80, 0x8F, [(0xF4, 0xF4)], .cont2)] :
            List (DecState × Nat × Nat × Nat × List (Nat × Nat) × DecState)),
    row.1.owed = row.2.1 ∧
    ∀ b : Byte,
      (∀ s : DecState, s.isStart = true →
        (transRom s (classRom b) = row.1 ↔ ∃ g ∈ row.2.2.2.2.1, g.1 ≤ b.toNat ∧ b.toNat ≤ g.2)) ∧
      (row.2.2.1 ≤ b.toNat ∧ b.toNat ≤ row.2.2.2.1 → transRom row.1 (classRom b) = row.2.2.2.2.2) ∧
      (¬(row.2.2.1 ≤ b.toNat ∧ b.toNat ≤ row.2.2.2.1) → transRom row.1 (classRom b) = .reject)

/-- 20_memory.md R28. The bit-level tables: at the code of a state and a class they hold the code of the enumerated
entry; padding holds `REJECT` (code 1) and 0; padding is never indexed, since `CLASS_ROM` holds only codes 0 to 12
and `TRANS_ROM` only codes 0 to 8; and the step core computed from them is the step core, for every state, every
accumulator and every byte. -/
def Obligations.BitLevelTablesRefineTheStepCore : Prop :=
  (∀ b : Byte, classRomBits b = (classRom b).code ∧ (classRomBits b).toNat ≤ 12) ∧
  (∀ (s : StateCode) (c : ClassCode), (transRomBits (s ++ c)).toNat ≤ 8 ∧
    (9 ≤ s.toNat ∨ 13 ≤ c.toNat → transRomBits (s ++ c) = 1#4)) ∧
  (∀ c : ClassCode, 13 ≤ c.toNat → seedMaskBits c = 0#7) ∧
  ∀ (s : DecState) (a : Acc) (b : Byte),
    stepCoreBits s.code a b = ((stepCore s a b).1.code, (stepCore s a b).2)

/-- 30_encoding.md R44, R45. The numeric codes: each code 0 to 12 names one class and each code 0 to 8 one state,
in the rule's order, and no other code names any. -/
def Obligations.ClassAndStateCodes : Prop :=
  (∀ (c : ByteClass) (k : ClassCode), ByteClass.ofCode k = some c ↔ c.code = k) ∧
  (∀ k : ClassCode, ByteClass.ofCode k = none ↔ 13 ≤ k.toNat) ∧
  [ByteClass.ascii, .contLo, .contMid, .contHi, .lead2, .lead3, .lead3E0, .lead3ED, .lead4, .lead4F0, .lead4F4,
    .invOverlong, .invTooLarge].map (fun c => c.code.toNat) = List.range 13 ∧
  (∀ (s : DecState) (k : StateCode), DecState.ofCode k = some s ↔ s.code = k) ∧
  (∀ k : StateCode, DecState.ofCode k = none ↔ 9 ≤ k.toNat) ∧
  [DecState.accept, .reject, .cont1, .cont2, .cont2E0, .cont2ED, .cont3, .cont3F0, .cont3F4].map
    (fun s => s.code.toNat) = List.range 9

/-! Requests and records as words -/

/-- 30_encoding.md R40 to R42. Decoding and encoding agree: a word decodes to an operation exactly when it is that
operation's word, for every operation with every operand and every one of the 2^36 words. -/
def Obligations.DecodeEncodeAgree : Prop :=
  ∀ (w : ReqWord) (i : Instr), decode w = .op i ↔ w = encode i

/-- 30_encoding.md R43. The reserved words are exactly those with `op` 0x6 to 0xF, those of format N with `arg` not
0, and those of format B with `arg[31:8]` not 0 (`ReqWord.wf` says so on numbers); a reserved word decodes to no
operation, and a step that meets one is refused by name: no next state, so no register written and no record. A
word that is not reserved decodes to an operation. -/
def Obligations.ReservedWordsRefused : Prop :=
  ∀ w : ReqWord,
    (ReqWord.wf w = true ↔ ∃ i, decode w = .op i) ∧
    (0x6 ≤ w.toNat / 2 ^ 32 ∨
      ((w.toNat / 2 ^ 32 = 0x0 ∨ w.toNat / 2 ^ 32 = 0x3) ∧ w.toNat % 2 ^ 32 ≠ 0) ∨
      ((w.toNat / 2 ^ 32 = 0x1 ∨ w.toNat / 2 ^ 32 = 0x2) ∧ w.toNat % 2 ^ 32 / 2 ^ 8 ≠ 0) ↔
      ReqWord.wf w = false) ∧
    (ReqWord.wf w = false → ∀ (s : State) (k : Nat) (rest : List Request),
      s.pending = { inst := k, word := w } :: rest →
      step s = .refused (if 0x6 ≤ w.toNat / 2 ^ 32 then .reservedOpcode else .reservedOperand))

/-- 30_encoding.md R41, 95_test_vectors.md section 2.7. A few request words, written from the opcode map. -/
def Obligations.WordsOfTheOpcodeMap : Prop :=
  decode 0x000000000#36 = .op .decInit ∧
  decode 0x1000000FF#36 = .op (.decStep 0xFF#8) ∧
  decode 0x2000000E2#36 = .op (.decVstep 0xE2#8) ∧
  decode 0x300000000#36 = .op .decFinish ∧
  decode 0x4FFFFFFFF#36 = .op (.encEncode 0xFFFFFFFF#32) ∧
  decode 0x50010FFFF#36 = .op (.encLength 0x10FFFF#32)

/-- 30_encoding.md R46. The packed decoder record, field by field, for every record; and what the fields of the
record of a decoder operation mean, by the state before and after it. -/
def Obligations.DecoderRecordLayout : Prop :=
  (∀ r : DecResult,
    (DecResult.pack r).extractLsb' 0 4 = r.state.code ∧
    (DecResult.pack r).getLsbD 4 = r.done ∧
    (DecResult.pack r).getLsbD 5 = r.rej ∧
    (DecResult.pack r).getLsbD 6 = r.err ∧
    (DecResult.pack r).getLsbD 7 = r.replay ∧
    (DecResult.pack r).getLsbD 8 = r.out.isSome ∧
    (DecResult.pack r).extractLsb' 9 21 = r.out.getD 0#21) ∧
  ∀ (i : Instr) (s t : State) (d d' : DecInst) (r : DecResult),
    exec i s = .next t → t.result = some (.dec r) → agentOf i s.sel = .decoder s.sel →
    s.insts[s.sel]? = some d → t.insts[s.sel]? = some d' →
    r.state = d'.state ∧
    (r.done = true ↔ (∃ b, i = .decStep b ∨ i = .decVstep b) ∧ d'.state = .accept) ∧
    (r.rej = true ↔ (∃ b, i = .decStep b ∨ i = .decVstep b) ∧ d'.state = .reject) ∧
    (r.err = true ↔ ((∃ b, i = .decStep b ∨ i = .decVstep b) ∧ d'.state = .reject ∧ d.state ≠ .reject) ∨
      (i = .decFinish ∧ 0 < d.state.owed)) ∧
    (r.replay = true ↔ (∃ b, i = .decStep b ∨ i = .decVstep b) ∧ d'.state = .reject ∧ 0 < d.state.owed) ∧
    (∀ a, r.out = some a → (∃ b, i = .decStep b) ∧ ((r.done = true ∧ a = d'.acc) ∨ (r.err = true ∧ a = 0xFFFD#21)))

/-- 30_encoding.md R47. The packed encoder record, field by field, for every record; and in the records the two
operations return, the length is 0 to 4, `err` is 1 exactly when it is 0, the bytes at positions `len` and above
are 0, and for `ENC.LENGTH` all four are. -/
def Obligations.EncoderRecordLayout : Prop :=
  (∀ e : EncResult,
    (EncResult.pack e).extractLsb' 0 3 = e.len ∧
    (EncResult.pack e).getLsbD 3 = e.err ∧
    (EncResult.pack e).extractLsb' 4 8 = e.b0 ∧
    (EncResult.pack e).extractLsb' 12 8 = e.b1 ∧
    (EncResult.pack e).extractLsb' 20 8 = e.b2 ∧
    (EncResult.pack e).extractLsb' 28 8 = e.b3) ∧
  ∀ (v : Scalar) (s : State), ∃ (t u : State) (e l : EncResult),
    exec (.encEncode v) s = .next t ∧ t.result = some (.enc e) ∧
    exec (.encLength v) s = .next u ∧ u.result = some (.enc l) ∧
    (∀ x : EncResult, x = e ∨ x = l → x.len.toNat ≤ 4 ∧ (x.err = true ↔ x.len = 0#3)) ∧
    (∀ k < 4, e.len.toNat ≤ k → [e.b0, e.b1, e.b2, e.b3][k]? = some 0#8) ∧
    l.b0 = 0#8 ∧ l.b1 = 0#8 ∧ l.b2 = 0#8 ∧ l.b3 = 0#8

/-! Errors, replay, recovery -/

/-- 60_exceptions.md R94. When a step reports E1, spelled out: by the state before and the byte alone, for both kinds
of step. -/
def Obligations.MalformedCause : Prop :=
  ∀ op : Byte → Instr, (op = .decStep ∨ op = .decVstep) →
  ∀ (s : State) (d : DecInst) (b : Byte), s.insts[s.sel]? = some d →
    ∃ (t : State) (r : DecResult), exec (op b) s = .next t ∧ t.result = some (.dec r) ∧
      (errorKind (op b) (.dec r) = some .malformed ↔ transRom d.state (classRom b) = .reject) ∧
      (errorKind (op b) (.dec r) = some .malformed ↔
        match d.state with
        | .accept => (0x80 ≤ b.toNat ∧ b.toNat ≤ 0xBF) ∨ b.toNat = 0xC0 ∨ b.toNat = 0xC1 ∨ 0xF5 ≤ b.toNat
        | .reject => (0x80 ≤ b.toNat ∧ b.toNat ≤ 0xBF) ∨ b.toNat = 0xC0 ∨ b.toNat = 0xC1 ∨ 0xF5 ≤ b.toNat
        | .cont1 => ¬(0x80 ≤ b.toNat ∧ b.toNat ≤ 0xBF)
        | .cont2 => ¬(0x80 ≤ b.toNat ∧ b.toNat ≤ 0xBF)
        | .cont3 => ¬(0x80 ≤ b.toNat ∧ b.toNat ≤ 0xBF)
        | .cont2E0 => ¬(0xA0 ≤ b.toNat ∧ b.toNat ≤ 0xBF)
        | .cont2ED => ¬(0x80 ≤ b.toNat ∧ b.toNat ≤ 0x9F)
        | .cont3F0 => ¬(0x90 ≤ b.toNat ∧ b.toNat ≤ 0xBF)
        | .cont3F4 => ¬(0x80 ≤ b.toNat ∧ b.toNat ≤ 0x8F))

/-- 60_exceptions.md R97. `DEC.FINISH` reports E2 exactly when the state is one of the seven IN-PROGRESS states; after
it the instance is as after reset; it reports nothing right after a step that gave `REJECT`; and no other operation
reports E2. -/
def Obligations.TruncatedCause : Prop :=
  (∀ (s : State) (d : DecInst), s.insts[s.sel]? = some d →
    ∃ (t : State) (r : DecResult), exec .decFinish s = .next t ∧ t.result = some (.dec r) ∧
      (errorKind .decFinish (.dec r) = some .truncated ↔
        d.state ∈ [DecState.cont1, .cont2, .cont2E0, .cont2ED, .cont3, .cont3F0, .cont3F4]) ∧
      t.insts[s.sel]? = (State.resetOf 1).insts[0]?) ∧
  (∀ op : Byte → Instr, (op = .decStep ∨ op = .decVstep) →
    ∀ (s t : State) (b : Byte) (r : DecResult), exec (op b) s = .next t → t.result = some (.dec r) →
      r.rej = true →
      ∃ (u : State) (q : DecResult), exec .decFinish t = .next u ∧ u.result = some (.dec q) ∧ q.err = false) ∧
  (∀ (i : Instr) (q : Result), errorKind i q = some .truncated → i = .decFinish)

/-- 60_exceptions.md R98. Both encoder operations report E3 exactly when `v` is 0xD800 to 0xDFFF, or 0x110000 or more,
that is when the length is 0; and nothing but the record changes. -/
def Obligations.InvalidScalarCause : Prop :=
  ∀ op : Scalar → Instr, (op = .encEncode ∨ op = .encLength) →
  ∀ (v : Scalar) (s : State), ∃ e : EncResult,
    exec (op v) s = .next { s with result := some (.enc e) } ∧
    (errorKind (op v) (.enc e) = some .invalidScalar ↔
      (0xD800 ≤ v.toNat ∧ v.toNat ≤ 0xDFFF) ∨ 0x110000 ≤ v.toNat) ∧
    (errorKind (op v) (.enc e) = some .invalidScalar ↔ e.len = 0#3)

/-- 60_exceptions.md section 2, table of R93. What stands beside each error kind: E1 leaves the instance in `REJECT`,
with `ACC` 0 and (on the first of a run) U+FFFD handed out after a `DEC.STEP`, `ACC` unchanged and nothing handed
out after a `DEC.VSTEP`; E2 leaves it at (`ACCEPT`, 0); E3 changes no instance. -/
def Obligations.ErrorKindEffects : Prop :=
  ∀ (i : Instr) (s t : State) (q : Result), exec i s = .next t → t.result = some q →
    (errorKind i q = some .malformed →
      ∃ (d d' : DecInst) (r : DecResult), s.insts[s.sel]? = some d ∧ t.insts[s.sel]? = some d' ∧ q = .dec r ∧
        d'.state = .reject ∧ (r.err = true ↔ d.state ≠ .reject) ∧ (r.replay = true ↔ d.state.inProgress = true) ∧
        ((∃ b, i = .decStep b ∧ d'.acc = 0#21 ∧ r.out = if r.err then some 0xFFFD#21 else none) ∨
          (∃ b, i = .decVstep b ∧ d'.acc = d.acc ∧ r.out = none))) ∧
    (errorKind i q = some .truncated →
      i = .decFinish ∧ t.insts[s.sel]? = some { state := .accept, acc := 0#21 }) ∧
    (errorKind i q = some .invalidScalar →
      (∃ v, i = .encEncode v ∨ i = .encLength v) ∧ t.insts = s.insts)

/-- 40_decoder.md section 3 and 95_test_vectors.md X9. The laws of the bits of any decoder record: `done` and `rej`
exclude each other; `replay` implies `err`; `err` implies `rej` in a step; `out` is present exactly when `done` or
`err` in a `DEC.STEP`, and never otherwise. -/
def Obligations.RecordBitLaws : Prop :=
  ∀ (i : Instr) (s t : State) (r : DecResult), exec i s = .next t → t.result = some (.dec r) →
    ¬(r.done = true ∧ r.rej = true) ∧
    (r.replay = true → r.err = true) ∧
    ((∃ b, i = .decStep b ∨ i = .decVstep b) → r.err = true → r.rej = true) ∧
    ((∃ b, i = .decStep b) → (r.out.isSome = true ↔ r.done = true ∨ r.err = true)) ∧
    ((∀ b, i ≠ .decStep b) → r.out = none)

/-- 40_decoder.md R58, section 6. After a step with `replay` = 1 the same step again never asks for a replay, adds no
error, and does what it would have done in `ACCEPT`. After a step that rejected in a START state, the same step
again rejects once more with no error and nothing handed out. -/
def Obligations.ReplayOnceIsEnough : Prop :=
  ∀ (s : State) (d : DecInst) (b : Byte), s.insts[s.sel]? = some d →
    ∃ (t : State) (r : DecResult), exec (.decStep b) s = .next t ∧ t.result = some (.dec r) ∧
      (r.replay = true →
        ∃ (u u' : State) (q q' : DecResult),
          exec (.decStep b) t = .next u ∧ u.result = some (.dec q) ∧ q.replay = false ∧ q.err = false ∧
          exec (.decStep b) { s with insts := s.insts.set s.sel { state := .accept, acc := d.acc } } = .next u' ∧
          u'.result = some (.dec q') ∧ u'.insts = u.insts ∧ q.done = q'.done ∧ q.rej = q'.rej) ∧
      (r.rej = true → r.replay = false →
        ∃ (u : State) (q : DecResult), exec (.decStep b) t = .next u ∧ u.result = some (.dec q) ∧
          u.insts = t.insts ∧ q.rej = true ∧ q.err = false ∧ q.replay = false ∧ q.out = none)

/-- 60_exceptions.md R96. Recovery needs nothing: a `DEC.STEP` taken in `REJECT` leaves the machine exactly as one taken
in `ACCEPT` does, whatever the accumulator held, but for the error bit and the replacement of a byte that rejects
again. -/
def Obligations.RejectRecoversByItself : Prop :=
  ∀ (s : State) (d : DecInst) (a : Acc) (b : Byte), s.insts[s.sel]? = some d → d.state = .reject →
    ∃ (t u : State) (r q : DecResult),
      exec (.decStep b) s = .next t ∧ t.result = some (.dec r) ∧
      exec (.decStep b) { s with insts := s.insts.set s.sel { state := .accept, acc := a } } = .next u ∧
      u.result = some (.dec q) ∧
      t.insts = u.insts ∧ r.done = q.done ∧ r.rej = q.rej ∧ r.replay = false ∧ q.replay = false ∧ r.err = false ∧
      (r.rej = false → r = q)

/-- 40_decoder.md R60. From every state whatever, a well-formed sequence is decoded after at most one replay: fed with
`DEC.FEED`, its last record has `done` = 1 and its value, and at most one step more than its bytes is issued. -/
def Obligations.WellFormedDecodedFromEveryState : Prop :=
  ∀ (s : State) (d : DecInst) (bs : List Byte), s.insts[s.sel]? = some d → wfSeq bs = true →
    ∃ (t : State) (rs : List Result) (r : DecResult), feedAll .decStep bs s = .next (t, rs) ∧
      rs.getLast? = some (.dec r) ∧ r.done = true ∧ r.out = some (BitVec.ofNat 21 (payload bs)) ∧
      rs.length = bs.length + d.state.inProgress.toNat

/-- 60_exceptions.md R95. However many bytes are stepped through an instance that is not in `REJECT`, with either kind of
step, `err` is 1 on the first record of a run of records with `rej` = 1 and 0 on every other record; so the number of
records with `err` = 1 is the number of maximal runs. -/
def Obligations.ErrCountsRejectRuns : Prop :=
  ∀ op : Byte → Instr, (op = .decStep ∨ op = .decVstep) →
  ∀ (s : State) (d : DecInst) (bs : List Byte), s.insts[s.sel]? = some d → d.state ≠ .reject →
    ∃ (t : State) (rs : List Result), issueAll (bs.map op) s = .next (t, rs) ∧
      (decRecords rs).length = bs.length ∧
      (decRecords rs).map (fun r => r.err) =
        List.zipWith (fun before now => now && !before) (false :: (decRecords rs).map (fun r => r.rej))
          ((decRecords rs).map (fun r => r.rej)) ∧
      ((decRecords rs).filter (fun r => r.err)).length = rejectRuns ((decRecords rs).map (fun r => r.rej))

/-! What is accepted -/

/-- 40_decoder.md R62. From a START state a byte string is accepted, with `done` at its last byte only and no `REJECT` on
the way, exactly when it is a row of the table; and then the value handed out, and left in `ACC`, is its payload. -/
def Obligations.AcceptedExactlyTheTable : Prop :=
  ∀ (s : State) (d : DecInst) (bs : List Byte), s.insts[s.sel]? = some d → d.state.isStart = true →
    ∃ (t : State) (rs : List Result), issueAll (bs.map .decStep) s = .next (t, rs) ∧
      (acceptedOnce (decRecords rs) = true ↔ wfSeq bs = true) ∧
      (wfSeq bs = true →
        ((decRecords rs).getLast?.bind (fun r => r.out)) = some (BitVec.ofNat 21 (payload bs)) ∧
        t.insts[s.sel]? = some { state := .accept, acc := BitVec.ofNat 21 (payload bs) } ∧
        isScalar (payload bs) = true)

/-- 30_encoding.md R48, R49 (the byte formats are marked `[derived]` by the spec). The class of the first byte alone announces
the length: a well-formed sequence has the length its first byte announces, a byte whose class announces none begins no
well-formed sequence, and one whose class announces a length begins one. And the rows of the table are the formats of R48
with the scalar in the range of its length. -/
def Obligations.FirstByteAnnouncesTheLength : Prop :=
  (∀ (b : Byte) (bs : List Byte), wfSeq (b :: bs) = true → (classRom b).seqLen = some (bs.length + 1)) ∧
  (∀ b : Byte, (classRom b).seqLen ≠ none → ∃ bs, wfSeq (b :: bs) = true) ∧
  ∀ (bs : List Byte), wfSeq bs = true ↔
    ((∃ a : Byte, bs = [a] ∧ a.toNat / 128 = 0b0) ∨
      (∃ a b : Byte, bs = [a, b] ∧ a.toNat / 32 = 0b110 ∧ b.toNat / 64 = 0b10 ∧
        0x80 ≤ payload bs ∧ payload bs ≤ 0x7FF) ∨
      (∃ a b c : Byte, bs = [a, b, c] ∧ a.toNat / 16 = 0b1110 ∧ b.toNat / 64 = 0b10 ∧ c.toNat / 64 = 0b10 ∧
        0x800 ≤ payload bs ∧ payload bs ≤ 0xFFFF ∧ ¬(0xD800 ≤ payload bs ∧ payload bs ≤ 0xDFFF)) ∨
      (∃ a b c d : Byte, bs = [a, b, c, d] ∧ a.toNat / 8 = 0b11110 ∧ b.toNat / 64 = 0b10 ∧ c.toNat / 64 = 0b10 ∧
        d.toNat / 64 = 0b10 ∧ 0x10000 ≤ payload bs ∧ payload bs ≤ 0x10FFFF))

/-- 41_encoder.md R75, first half: the round trip. The bytes `ENC.ENCODE v` returns, stepped through an instance in a START
state, give no `REJECT`, no `replay`, `done` at the last byte only, and `v` there; one record for each byte. -/
def Obligations.RoundTrip : Prop :=
  ∀ (v : Scalar) (s : State) (d : DecInst), s.insts[s.sel]? = some d → d.state.isStart = true →
    ∃ (t : State) (e : EncResult), exec (.encEncode v) s = .next t ∧ t.result = some (.enc e) ∧
      (e.err = false →
        ∃ (u : State) (rs : List Result), issueAll (e.bytes.map .decStep) t = .next (u, rs) ∧
          (decRecords rs).length = e.len.toNat ∧
          acceptedOnce (decRecords rs) = true ∧
          (∀ r ∈ decRecords rs, r.rej = false ∧ r.err = false ∧ r.replay = false) ∧
          ((decRecords rs).getLast?.bind (fun r => r.out)) = some (v.setWidth 21) ∧
          (v.setWidth 21 : Acc).toNat = v.toNat)

/-- 41_encoder.md R75, second half. The encoder's outputs are exactly the well-formed sequences: each is the output for its
own payload, and for no other scalar. -/
def Obligations.EncoderOutputsAreTheTable : Prop :=
  ∀ (bs : List Byte) (v : Scalar) (s : State),
    ∃ (t : State) (e : EncResult), exec (.encEncode v) s = .next t ∧ t.result = some (.enc e) ∧
      (e.err = false ∧ e.bytes = bs ↔ wfSeq bs = true ∧ payload bs = v.toNat)

/-- 41_encoder.md R76. `ENC.ENCODE 0xFFFD` gives length 3 and the bytes EF BF BD, in any state. -/
def Obligations.ReplacementEncoding : Prop :=
  ∀ s : State, exec (.encEncode 0xFFFD#32) s = .next { s with
    result := some (.enc { len := 3#3, err := false, b0 := 0xEF#8, b1 := 0xBF#8, b2 := 0xBD#8, b3 := 0#8 }) }

/-! Independence -/

/-- 40_decoder.md R63. On the same state and byte, `DEC.STEP` and `DEC.VSTEP` both complete, with the same next `STATE` and
the same four bits; and from then on nothing of the four bits depends on the accumulator, so the agreement lasts for any
bytes that follow. -/
def Obligations.StepAndVstepAgree : Prop :=
  ∀ (s : State) (d : DecInst) (bs : List Byte), s.insts[s.sel]? = some d →
    ∃ (t u : State) (rs qs : List Result),
      issueAll (bs.map .decStep) s = .next (t, rs) ∧ issueAll (bs.map .decVstep) s = .next (u, qs) ∧
      (t.insts.map (fun x => x.state)) = (u.insts.map (fun x => x.state)) ∧
      (decRecords rs).map (fun r => (r.state, r.done, r.rej, r.err, r.replay)) =
        (decRecords qs).map (fun r => (r.state, r.done, r.rej, r.err, r.replay)) ∧
      (u.insts.map (fun x => x.acc)) = (s.insts.map (fun x => x.acc))

/-- 60_exceptions.md section 5 and 20_memory.md section 7. An operation changes the registers of no instance but the one
whose agent performs it; the encoder's operations change none; and no operation changes which instance is addressed, what
is issued, or how many instances there are. -/
def Obligations.OnlyOwnRegistersChange : Prop :=
  ∀ (i : Instr) (s t : State), exec i s = .next t →
    (∀ k, Agent.owns (agentOf i s.sel) k = false → t.insts[k]? = s.insts[k]?) ∧
    t.insts.length = s.insts.length ∧ t.sel = s.sel ∧ t.pending = s.pending

/-- 60_exceptions.md section 5 and 70_reset_and_hazards.md section 3. What an operation does to its own instance, and the
record it returns, depend on that instance's pair alone: two machines that agree on it, and on nothing else, get the same;
and an encoder operation gets the same in any two machines. -/
def Obligations.NothingLeaksBetweenInstances : Prop :=
  ∀ (i : Instr) (s t : State),
    (agentOf i s.sel = .encoder ∨ (s.insts[s.sel]? = t.insts[t.sel]? ∧ s.insts[s.sel]? ≠ none)) →
    ∃ s' t' : State, exec i s = .next s' ∧ exec i t = .next t' ∧ s'.result = t'.result ∧
      (agentOf i s.sel = .decoder s.sel → s'.insts[s.sel]? = t'.insts[t.sel]?)

/-- 10_state.md section 2 and 70_reset_and_hazards.md section 2. No operation reads `ACC` in a START state: two machines that
differ only in it are the same machine after any decoder operation but `DEC.VSTEP`, which leaves it alone; and the four bits
and the next `STATE` never depend on it, in any state. -/
def Obligations.AccumulatorReadOnlyInProgress : Prop :=
  ∀ (i : Instr) (s : State) (d : DecInst) (a : Acc), s.insts[s.sel]? = some d →
    ∃ (t u : State), exec i s = .next t ∧
      exec i { s with insts := s.insts.set s.sel { state := d.state, acc := a } } = .next u ∧
      (t.insts.map (fun x => x.state)) = (u.insts.map (fun x => x.state)) ∧
      (d.state.isStart = true → agentOf i s.sel = .decoder s.sel → (∀ b, i ≠ .decVstep b) → t = u) ∧
      (∀ r q : DecResult, t.result = some (.dec r) → u.result = some (.dec q) →
        r.state = q.state ∧ r.done = q.done ∧ r.rej = q.rej ∧ r.err = q.err ∧ r.replay = q.replay)

/-- 20_memory.md section 7 and 70_reset_and_hazards.md section 3. Operations of different agents can be issued in either
order: both orders complete, leave the same registers, and give each operation the same record. -/
def Obligations.DifferentAgentsCommute : Prop :=
  ∀ (i j : Instr) (s : State) (k m : Nat), k < s.insts.length → m < s.insts.length →
    (k ≠ m ∨ agentOf i k = .encoder ∨ agentOf j m = .encoder) →
    ∃ t t' u u' : State,
      exec i { s with sel := k } = .next t ∧ exec j { t with sel := m } = .next t' ∧
      exec j { s with sel := m } = .next u ∧ exec i { u with sel := k } = .next u' ∧
      t'.insts = u'.insts ∧ t.result = u'.result ∧ t'.result = u.result

/-- 20_memory.md R31, last sentences. An encoder operation issued twice leaves the machine as issued once; `DEC.INIT` and
`DEC.FINISH` issued twice leave the registers as issued once; and for each of the two steps there are a pair and a byte for
which the second one changes the registers. -/
def Obligations.IdempotentOperations : Prop :=
  (∀ (i : Instr) (s t : State), agentOf i s.sel = .encoder → exec i s = .next t → exec i t = .next t) ∧
  (∀ (i : Instr), (i = .decInit ∨ i = .decFinish) → ∀ (s : State) (d : DecInst), s.insts[s.sel]? = some d →
    ∃ t u : State, exec i s = .next t ∧ exec i t = .next u ∧ u.insts = t.insts) ∧
  (∀ op : Byte → Instr, (op = .decStep ∨ op = .decVstep) →
    ∃ (b : Byte) (s t u : State), exec (op b) s = .next t ∧ exec (op b) t = .next u ∧ u.insts ≠ t.insts)

/-! The step, reset, and what every step keeps -/

/-- 20_memory.md section 7. A step performs the oldest request: the word is decoded, the instance it names is addressed, and
the operation is performed on the state with the request gone. With nothing issued a step changes nothing (the model's
choice, log entry 6). -/
def Obligations.StepPerformsTheOldestRequest : Prop :=
  (∀ (s : State) (r : Request) (rest : List Request) (i : Instr),
    s.pending = r :: rest → decode r.word = .op i → i.wf = true →
    step s = exec i { s with pending := rest, sel := r.inst }) ∧
  (∀ s : State, s.pending = [] → step s = .next s)

/-- 20_memory.md section 7. Operations issued to one instance and to the encoder are performed in the order they were issued,
each on the state the one before left: the steps of the machine give the last state and the records of performing them one
after another. -/
def Obligations.IssuedOperationsPerformedInOrder : Prop :=
  ∀ (is : List Instr) (s : State), s.insts[s.sel]? ≠ none →
    ∃ (t : State) (rs : List Result), issueAll is s = .next (t, rs) ∧ rs.length = is.length ∧
      State.run is.length
        { s with pending := is.map (fun i => { inst := s.sel, word := encode i }) ++ s.pending } = .next (t, rs)

/-- A decoder operation issued to an instance the machine does not have is refused by name, and is the only operation that
is: the model's choice, log entry 5. -/
def Obligations.MissingInstanceRefused : Prop :=
  ∀ (i : Instr) (s : State),
    (agentOf i s.sel = .decoder s.sel ∧ s.insts[s.sel]? = none → exec i s = .refused .noSuchInstance) ∧
    (agentOf i s.sel = .encoder ∨ s.insts[s.sel]? ≠ none → ∃ t, exec i s = .next t)

/-- 60_exceptions.md R92. A step on a well-formed request always answers a next state, and the machine it leaves is legal
again: from a legal state no run ever stops. -/
def Obligations.LegalMachineNeverStops : Prop :=
  ∀ s : State, s.legal = true → ∃ t, step s = .next t ∧ t.legal = true

/-- 70_reset_and_hazards.md section 1. After reset every instance shows `STATE` code 0 and `ACC` 0, and there is no record, for
every number of instances, and the same when a machine in any state is reset (that reset forgets the last record and
what was issued is log entry 7); `DEC.INIT` and `DEC.FINISH` put an instance into that same pair from any other. -/
def Obligations.ResetAndThreeWaysIntoIt : Prop :=
  (∀ n k : Nat, k < n →
    (State.resetOf n).stateOut k = some 0#4 ∧ (State.resetOf n).accOut k = some 0#21 ∧
    (State.resetOf n).insts.length = n ∧ (State.resetOf n).result = none) ∧
  (∀ (s : State) (k : Nat), k < s.insts.length →
    s.resetAll.stateOut k = some 0#4 ∧ s.resetAll.accOut k = some 0#21 ∧ s.resetAll.result = none ∧
    s.resetAll.insts.length = s.insts.length) ∧
  ∀ (i : Instr), (i = .decInit ∨ i = .decFinish) → ∀ (s : State) (d : DecInst), s.insts[s.sel]? = some d →
    ∃ t : State, exec i s = .next t ∧ ∀ n k : Nat, k < n → t.insts[s.sel]? = (State.resetOf n).insts[k]?

/-- 10_state.md section 2, the table of R15. On a machine every instance of which holds a pair of the table, and to which no
`DEC.VSTEP` is issued, every step leaves every instance at a pair of the table. -/
def Obligations.StepKeepsTheTabledPairs : Prop :=
  ∀ s t : State, s.tabled = true → step s = .next t → t.tabled = true

/-- 10_state.md section 2. Every machine right after reset is legal, if it has an instance, and at pairs of the table of R15; so
is the machine `State.reset`. -/
def Obligations.ResetMeetsTheInvariants : Prop :=
  (∀ n : Nat, (State.resetOf n).tabled = true ∧ (1 ≤ n → (State.resetOf n).legal = true)) ∧
  State.reset.legal = true ∧ State.reset.tabled = true

/-- 10_state.md section 2, "the pairs that can occur are exactly". Every pair of the table of R15 does occur: from reset, some
bytes lead to it. -/
def Obligations.EveryTabledPairOccurs : Prop :=
  ∀ d : DecInst, d.tabled = true →
    ∃ (bs : List Byte) (t : State) (rs : List Result),
      issueAll (bs.map .decStep) (State.resetOf 1) = .next (t, rs) ∧ t.insts = [d]

/-- 10_state.md section 2 and 40_decoder.md section 7. At a pair of the table of R15 the shift of a continuation byte loses no
bit: the new accumulator is the old one times 64 plus the six payload bits, without the cut. -/
def Obligations.ShiftLosesNothingInReach : Prop :=
  ∀ (s : State) (d : DecInst) (b : Byte), s.insts[s.sel]? = some d → d.tabled = true → d.state.inProgress = true →
    ∃ (t : State) (d' : DecInst), exec (.decStep b) s = .next t ∧ t.insts[s.sel]? = some d' ∧
      (d'.state ≠ .reject → d'.acc.toNat = d.acc.toNat * 64 + b.toNat % 64)

/-! The reference driver -/

/-- 42_reference_driver.md R91, "idempotent substitution". For every list of scalar values, encoding the list and decoding the
bytes gives the list back, all counted good, none in error. -/
def Obligations.DecodeOfEncodeIsTheList : Prop :=
  ∀ (vs : List Scalar) (s : State) (d : DecInst), s.insts[s.sel]? = some d → (∀ v ∈ vs, isScalar v.toNat = true) →
    ∃ (t u : State) (e : EncDriver) (r : Driver),
      encodeStream vs s = .next (t, e) ∧ e.nOk = vs.length ∧ e.nErr = 0 ∧
      decodeStream e.bytes t = .next (u, r) ∧
      r.outs.map (fun x => x.toNat) = vs.map (fun v => v.toNat) ∧ r.nOk = vs.length ∧ r.nErr = 0

/-- 42_reference_driver.md R81, R82, R89. For every byte string, on every instance in any state: both streams come to their end;
the cursor has reached the end of the input; at most two steps were issued for each byte; the scalars handed out are as many
as the good and bad sequences, less one if the tail was truncated; the instance is at (`ACCEPT`, 0). -/
def Obligations.StreamCounts : Prop :=
  ∀ (bs : List Byte) (s : State) (d : DecInst), s.insts[s.sel]? = some d →
    ∃ (t : State) (r : Driver) (q : DecResult), decodeStream bs s = .next (t, r) ∧ t.result = some (.dec q) ∧
      r.cursor = bs.length ∧ bs.length ≤ r.steps ∧ r.steps ≤ 2 * bs.length ∧
      r.outs.length + q.err.toNat = r.nOk + r.nErr ∧
      t.insts = s.insts.set s.sel { state := .accept, acc := 0#21 }

/-- 42_reference_driver.md R81. Validating counts what decoding counts, for every byte string. -/
def Obligations.ValidateCountsAsDecode : Prop :=
  ∀ (bs : List Byte) (s : State) (d : DecInst), s.insts[s.sel]? = some d →
    ∃ (t u : State) (r q : Driver), decodeStream bs s = .next (t, r) ∧ validateStream bs s = .next (u, q) ∧
      r.nOk = q.nOk ∧ r.nErr = q.nErr ∧ r.steps = q.steps ∧ r.nRej = q.nRej ∧ q.outs = []

/-- 40_decoder.md R58, 95_test_vectors.md X5. A driver that presents a byte again after every first `REJECT` of a run gets the same
scalars and the same counts as one that obeys `replay`, for every byte string. -/
def Obligations.ReplayingEveryFirstRejectIsTheSame : Prop :=
  ∀ (bs : List Byte) (s : State) (d : DecInst), s.insts[s.sel]? = some d →
    ∃ (t u : State) (r q : Driver),
      runStream .decStep .obey bs s = .next (t, r) ∧ runStream .decStep .replayFirstReject bs s = .next (u, q) ∧
      r.cursor = bs.length ∧ q.cursor = bs.length ∧
      r.outs = q.outs ∧ r.nOk = q.nOk ∧ r.nErr = q.nErr ∧ t.insts = u.insts

/-- 42_reference_driver.md R83. Encoding a list emits, for each scalar in order, its own encoding or that of U+FFFD, and counts the
two kinds; no instance changes; and `length_stream` returns the number of those bytes and the same counts. -/
def Obligations.EncodeStreamSubstitutes : Prop :=
  ∀ (vs : List Scalar) (s : State),
    ∃ (t u : State) (e l : EncDriver),
      encodeStream vs s = .next (t, e) ∧ lengthStream vs s = .next (u, l) ∧
      e.bytes = vs.flatMap (fun v => if isScalar v.toNat then (encodeResult v).bytes else [0xEF#8, 0xBF#8, 0xBD#8]) ∧
      e.nOk = (vs.filter (fun v => isScalar v.toNat)).length ∧
      e.nErr = (vs.filter (fun v => !isScalar v.toNat)).length ∧
      t.insts = s.insts ∧ u.insts = s.insts ∧
      l.nBytes = e.bytes.length ∧ l.nOk = e.nOk ∧ l.nErr = e.nErr

/-- 30_encoding.md R51. What the two conditional pseudo-operations issue: a second step exactly after `replay` = 1, and U+FFFD
exactly after a failure; their records are those of the operations issued, in order. -/
def Obligations.ConditionalPseudoOperations : Prop :=
  (∀ (s : State) (d : DecInst) (b : Byte), s.insts[s.sel]? = some d →
    ∃ (t : State) (r : DecResult), exec (.decStep b) s = .next t ∧ t.result = some (.dec r) ∧
      runPseudo (.decFeed b) s =
        issueAll (if r.replay then [.decStep b, .decStep b] else [.decStep b]) s) ∧
  (∀ (s : State) (d : DecInst) (b : Byte), s.insts[s.sel]? = some d →
    ∃ (t : State) (r : DecResult), exec (.decVstep b) s = .next t ∧ t.result = some (.dec r) ∧
      runPseudo (.decVfeed b) s =
        issueAll (if r.replay then [.decVstep b, .decVstep b] else [.decVstep b]) s) ∧
  (∀ (s : State) (v : Scalar),
    runPseudo (.encSubst v) s =
      issueAll (if isScalar v.toNat then [.encEncode v] else [.encEncode v, .encEncode 0xFFFD#32]) s)

/-- 30_encoding.md R51, 42_reference_driver.md R81. `DEC.STRING` and `decode_stream` are the same: the same last state, and the
records of the line hold the scalars and the counts of the stream; likewise `DEC.VSTRING` and `validate_stream`. -/
def Obligations.StringLineIsTheStream : Prop :=
  ∀ (bs : List Byte) (s : State) (d : DecInst), s.insts[s.sel]? = some d →
    (∃ (t : State) (r : Driver) (rs : List Result),
      decodeStream bs s = .next (t, r) ∧ runPseudo (.decString bs) s = .next (t, rs) ∧
      rs.length = r.steps + 2 ∧ (decRecords rs).flatMap (fun q => q.out.toList) = r.outs ∧
      ((decRecords rs).filter (fun q => q.done)).length = r.nOk ∧
      ((decRecords rs).filter (fun q => q.err)).length = r.nErr) ∧
    (∃ (t : State) (r : Driver) (rs : List Result),
      validateStream bs s = .next (t, r) ∧ runPseudo (.decVstring bs) s = .next (t, rs) ∧
      rs.length = r.steps + 2 ∧
      ((decRecords rs).filter (fun q => q.done)).length = r.nOk ∧
      ((decRecords rs).filter (fun q => q.err)).length = r.nErr)

/-- 42_reference_driver.md R91 and 95_test_vectors.md section 1. The literal byte strings of the source, from reset: the overlong
form, the surrogate, the truncated tail and the range cap. -/
def Obligations.SourceExamples : Prop :=
  ∀ row ∈ ([([0xC1#8, 0xBF#8], [0xFFFD#21], 0, 1), ([0xED#8, 0xA0#8, 0x80#8], [0xFFFD#21], 0, 1),
            ([0xE2#8, 0x82#8], [], 0, 1), ([0xF4#8, 0x90#8, 0x80#8, 0x80#8], [0xFFFD#21], 0, 1)] :
            List (List Byte × List Acc × Nat × Nat)),
    ∃ (t : State) (r : Driver), decodeStream row.1 (State.resetOf 1) = .next (t, r) ∧
      r.outs = row.2.1 ∧ r.nOk = row.2.2.1 ∧ r.nErr = row.2.2.2

/-- 70_reset_and_hazards.md section 2. What a driver that breaks the replay duty gets for E2 41 42, and what one that issues
`DEC.INIT` after every `REJECT` counts for FF FF and for ED A0 80, from reset. -/
def Obligations.OtherDriversForContrast : Prop :=
  (∃ (t : State) (r : Driver),
    runStream .decStep .neverReplay [0xE2#8, 0x41#8, 0x42#8] (State.resetOf 1) = .next (t, r) ∧
    r.outs = [0xFFFD#21, 0x42#21]) ∧
  (∃ (t : State) (r : Driver),
    runStream .decStep .initAfterReject [0xFF#8, 0xFF#8] (State.resetOf 1) = .next (t, r) ∧ r.nErr = 2) ∧
  (∃ (t : State) (r : Driver),
    runStream .decStep .initAfterReject [0xED#8, 0xA0#8, 0x80#8] (State.resetOf 1) = .next (t, r) ∧ r.nErr = 3)

/-- 30_encoding.md section 5. The two assembler lines whose words the rule on syntax gives, and a legal line's word in
general: the operation code above the operand zero-extended. That a line is legal exactly when its operand fits, so that
one whose operand is missing, unexpected or too large is no line, is the model's choice, log entry 8. -/
def Obligations.AssembledWords : Prop :=
  assemble "DEC.STEP   0xE2".toList = some 0x1000000E2#36 ∧
  assemble "ENC.ENCODE 0x20AC".toList = some 0x4000020AC#36 ∧
  ∀ (r : RawOp), (RawOp.wf r = true ↔ ∃ i, instrOfRaw r = some i) ∧
    ∀ i, instrOfRaw r = some i → encode i = r.op.code ++ BitVec.ofNat 32 (r.operand.getD 0)
end

