-- ==== Sys2Proof/Laws/Datapath.lean ====
section
/-! SUPPORT. The datapaths as arithmetic: every OR of the block meets only zeros, so it is an addition
(40_decoder.md R61, 41_encoder.md R74). -/

namespace Sys2Proof.Machine

/-- Shifting a continuation byte in is multiplication by 64 and addition, cut to 21 bits (R61). -/
theorem shiftIn_toNat (a : Acc) (b : Byte) :
    (shiftIn a b).toNat = (a.toNat * 64 + b.toNat % 64) % 2 ^ 21 := by
  have h1 : a.toNat < 2 ^ 21 := a.isLt
  have h2 : b.toNat % 64 < 2 ^ 6 := Nat.mod_lt _ (by decide)
  have h3 : (a.toNat <<< 6) ||| (b.toNat % 64) = a.toNat * 64 + b.toNat % 64 := by
    rw [← Nat.shiftLeft_add_eq_or_of_lt h2, Nat.shiftLeft_eq]
  have h4 : a.toNat % 134217728 = a.toNat := Nat.mod_eq_of_lt (by omega)
  have h5 : a.toNat <<< 6 % 134217728 = a.toNat <<< 6 := by
    rw [Nat.shiftLeft_eq]; exact Nat.mod_eq_of_lt (by omega)
  have h6 : b.toNat % 64 % 134217728 = b.toNat % 64 := Nat.mod_eq_of_lt (by omega)
  simp [shiftIn, BitVec.extractLsb'_toNat, h4, h5, h6, h3]

/-- The length rule with its constants written out (41_encoder.md R70). -/
theorem encLen_def (v : Scalar) :
    encLen v = (if v.toNat ≤ 0x7F then 1#3 else if v.toNat ≤ 0x7FF then 2#3
      else if 0xD800 ≤ v.toNat ∧ v.toNat ≤ 0xDFFF then 0#3
      else if v.toNat ≤ 0xFFFF then 3#3 else if v.toNat ≤ 0x10FFFF then 4#3 else 0#3) := rfl

/-- The START states (00_scope.md R38). -/
theorem isStart_iff (s : DecState) : s.isStart = true ↔ s = .accept ∨ s = .reject := by
  cases s <;> simp [DecState.isStart]

@[simp] theorem isAccept_iff (s : DecState) : s.isAccept = true ↔ s = .accept := by
  cases s <;> simp [DecState.isAccept]

@[simp] theorem isReject_iff (s : DecState) : s.isReject = true ↔ s = .reject := by
  cases s <;> simp [DecState.isReject]

@[simp] theorem isAccept_eq_false_iff (s : DecState) : s.isAccept = false ↔ s ≠ .accept := by
  cases s <;> simp [DecState.isAccept]

@[simp] theorem isReject_eq_false_iff (s : DecState) : s.isReject = false ↔ s ≠ .reject := by
  cases s <;> simp [DecState.isReject]

/-- The IN-PROGRESS states (R38). -/
theorem inProgress_iff (s : DecState) : s.inProgress = true ↔ s ≠ .accept ∧ s ≠ .reject := by
  cases s <;> simp [DecState.inProgress, DecState.isStart]

/-- The `REJECT` row of `TRANS_ROM` is the `ACCEPT` row (20_memory.md R23). -/
theorem transRom_of_isStart {s : DecState} (h : s.isStart = true) (c : ByteClass) : transRom s c = startRow c := by
  cases s <;> first | rfl | cases h

/-- In a START state the step core does not read the accumulator or the state (R53, R55). -/
theorem stepCore_of_isStart {s : DecState} (h : s.isStart = true) (a : Acc) (b : Byte) :
    stepCore s a b = (startRow (classRom b),
      if (startRow (classRom b)).isReject then 0#21 else seed b (classRom b)) := by
  simp [stepCore, transRom_of_isStart h, h]

/-- The state part of the step core is the table (R53). -/
@[simp] theorem stepCore_state (s : DecState) (a : Acc) (b : Byte) :
    (stepCore s a b).1 = transRom s (classRom b) := rfl

@[simp] theorem transRom_accept (c : ByteClass) : transRom .accept c = startRow c := rfl
@[simp] theorem transRom_reject (c : ByteClass) : transRom .reject c = startRow c := rfl

/-! What a step does to an instance, field by field (R55, R56) -/

section Fields

variable (b : Byte) (d : DecInst)

@[simp] theorem stepInst_state : (stepInst b d).1.state = transRom d.state (classRom b) := rfl
@[simp] theorem stepInst_acc : (stepInst b d).1.acc = (stepCore d.state d.acc b).2 := rfl
@[simp] theorem stepInst_after : (stepInst b d).2.state = transRom d.state (classRom b) := rfl
@[simp] theorem stepInst_done : (stepInst b d).2.done = (transRom d.state (classRom b)).isAccept := rfl
@[simp] theorem stepInst_rej : (stepInst b d).2.rej = (transRom d.state (classRom b)).isReject := rfl
@[simp] theorem stepInst_err :
    (stepInst b d).2.err = ((transRom d.state (classRom b)).isReject && !d.state.isReject) := rfl
@[simp] theorem stepInst_replay :
    (stepInst b d).2.replay = ((transRom d.state (classRom b)).isReject && d.state.inProgress) := rfl
@[simp] theorem stepInst_out : (stepInst b d).2.out =
    stepOut d.state (transRom d.state (classRom b)) (stepCore d.state d.acc b).2 := rfl

@[simp] theorem vstepInst_state : (vstepInst b d).1.state = transRom d.state (classRom b) := rfl
@[simp] theorem vstepInst_acc : (vstepInst b d).1.acc = d.acc := rfl
@[simp] theorem vstepInst_after : (vstepInst b d).2.state = transRom d.state (classRom b) := rfl
@[simp] theorem vstepInst_done : (vstepInst b d).2.done = (transRom d.state (classRom b)).isAccept := rfl
@[simp] theorem vstepInst_rej : (vstepInst b d).2.rej = (transRom d.state (classRom b)).isReject := rfl
@[simp] theorem vstepInst_err :
    (vstepInst b d).2.err = ((transRom d.state (classRom b)).isReject && !d.state.isReject) := rfl
@[simp] theorem vstepInst_replay :
    (vstepInst b d).2.replay = ((transRom d.state (classRom b)).isReject && d.state.inProgress) := rfl
@[simp] theorem vstepInst_out : (vstepInst b d).2.out = none := rfl

@[simp] theorem finishInst_err : (finishInst d).2.err = d.state.inProgress := rfl

end Fields

/-- What `out` is: the value with `ACCEPT`, U+FFFD with the first `REJECT` of a run, absent otherwise (R55). -/
theorem stepOut_eq (s s' : DecState) (a : Acc) :
    stepOut s s' a = if s' = .accept then some a
      else if s' = .reject ∧ s ≠ .reject then some replacement else none := by
  cases s' <;> cases s <;> rfl

/-- The accumulator of a step that does not reject, in an IN-PROGRESS state (R53). -/
theorem stepCore_acc_inProgress {s : DecState} (h : s.inProgress = true) {b : Byte}
    (hr : transRom s (classRom b) ≠ .reject) (a : Acc) : (stepCore s a b).2 = shiftIn a b := by
  have hs : s.isStart = false := by simpa [DecState.inProgress] using h
  simp [stepCore, hr, hs]

/-- The accumulator of a step that rejects (R53). -/
theorem stepCore_acc_reject {s : DecState} {b : Byte} (hr : transRom s (classRom b) = .reject) (a : Acc) :
    (stepCore s a b).2 = 0#21 := by
  simp [stepCore, hr]

/-- A continuation byte of the encoder as a number (41_encoder.md R74). -/
theorem contByte_toNat (v : Scalar) (lo : Nat) : (contByte v lo).toNat = 0x80 + v.toNat / 2 ^ lo % 64 := by
  have h : ∀ x : BitVec 6, (0x80#8 ||| x.setWidth 8).toNat = 0x80 + x.toNat := by decide
  simp [contByte, h, Nat.shiftRight_eq_div_pow]

/-- The lead byte of a 2-byte sequence as a number (R74). -/
theorem lead2_toNat (v : Scalar) :
    (0xC0#8 ||| (v.extractLsb' 6 5).setWidth 8).toNat = 0xC0 + v.toNat / 64 % 32 := by
  have h : ∀ x : BitVec 5, (0xC0#8 ||| x.setWidth 8).toNat = 0xC0 + x.toNat := by decide
  simp [h, Nat.shiftRight_eq_div_pow]

/-- The lead byte of a 3-byte sequence as a number (R74). -/
theorem lead3_toNat (v : Scalar) :
    (0xE0#8 ||| (v.extractLsb' 12 4).setWidth 8).toNat = 0xE0 + v.toNat / 4096 % 16 := by
  have h : ∀ x : BitVec 4, (0xE0#8 ||| x.setWidth 8).toNat = 0xE0 + x.toNat := by decide
  simp [h, Nat.shiftRight_eq_div_pow]

/-- The lead byte of a 4-byte sequence as a number (R74). -/
theorem lead4_toNat (v : Scalar) :
    (0xF0#8 ||| (v.extractLsb' 18 3).setWidth 8).toNat = 0xF0 + v.toNat / 262144 % 8 := by
  have h : ∀ x : BitVec 3, (0xF0#8 ||| x.setWidth 8).toNat = 0xF0 + x.toNat := by decide
  simp [h, Nat.shiftRight_eq_div_pow]

end Sys2Proof.Machine
end

