-- ==== Sys2Proof/Laws/State.lean ====
section
/-! SUPPORT. One lemma for each field of each update of `State`, so that no later proof unfolds a record
update. -/

namespace Sys2Proof.Machine

variable (s : State) (d : DecInst) (r : Result) (q : Request) (w : ReqWord) (k n : Nat) (rest : List Request)

@[simp] theorem State.putSelected_insts : (s.putSelected d).insts = s.insts.set s.sel d := rfl
@[simp] theorem State.putSelected_sel : (s.putSelected d).sel = s.sel := rfl
@[simp] theorem State.putSelected_pending : (s.putSelected d).pending = s.pending := rfl
@[simp] theorem State.putSelected_result : (s.putSelected d).result = s.result := rfl

@[simp] theorem State.returns_insts : (s.returns r).insts = s.insts := rfl
@[simp] theorem State.returns_sel : (s.returns r).sel = s.sel := rfl
@[simp] theorem State.returns_pending : (s.returns r).pending = s.pending := rfl
@[simp] theorem State.returns_result : (s.returns r).result = some r := rfl

@[simp] theorem State.accepts_insts : (s.accepts k rest).insts = s.insts := rfl
@[simp] theorem State.accepts_sel : (s.accepts k rest).sel = k := rfl
@[simp] theorem State.accepts_pending : (s.accepts k rest).pending = rest := rfl
@[simp] theorem State.accepts_result : (s.accepts k rest).result = s.result := rfl

@[simp] theorem State.issue_insts : (s.issue q).insts = s.insts := rfl
@[simp] theorem State.issue_sel : (s.issue q).sel = s.sel := rfl
@[simp] theorem State.issue_pending : (s.issue q).pending = s.pending ++ [q] := rfl
@[simp] theorem State.issue_result : (s.issue q).result = s.result := rfl

@[simp] theorem State.issueFirst_insts : (s.issueFirst w).insts = s.insts := rfl
@[simp] theorem State.issueFirst_sel : (s.issueFirst w).sel = s.sel := rfl
@[simp] theorem State.issueFirst_pending :
    (s.issueFirst w).pending = { inst := s.sel, word := w } :: s.pending := rfl
@[simp] theorem State.issueFirst_result : (s.issueFirst w).result = s.result := rfl

@[simp] theorem State.resetOf_insts : (State.resetOf n).insts = List.replicate n DecInst.start := rfl
@[simp] theorem State.resetOf_sel : (State.resetOf n).sel = 0 := rfl
@[simp] theorem State.resetOf_pending : (State.resetOf n).pending = [] := rfl
@[simp] theorem State.resetOf_result : (State.resetOf n).result = none := rfl

@[simp] theorem State.returns_selected : (s.returns r).selected = s.selected := rfl
@[simp] theorem State.returns_lastDec (x : DecResult) : (s.returns (.dec x)).lastDec = x := rfl
@[simp] theorem State.returns_lastEnc (x : EncResult) : (s.returns (.enc x)).lastEnc = x := rfl

/-- Writing the addressed instance, when it exists, makes it hold what was written. -/
theorem State.putSelected_selected {s : State} {d : DecInst} (h : s.selected = some d) (d' : DecInst) :
    (s.putSelected d').selected = some d' := by
  obtain ⟨hlt, -⟩ := List.getElem?_eq_some_iff.mp h
  simp [State.selected, hlt]

/-- Writing the addressed instance leaves every other one alone. -/
theorem State.putSelected_other {s : State} {k : Nat} (h : s.sel ≠ k) (d' : DecInst) :
    (s.putSelected d').insts[k]? = s.insts[k]? := by
  simp [h]

/-- The addressed instance of a machine right after reset is at the start pair. -/
theorem State.resetOf_selected {n : Nat} (h : 1 ≤ n) : (State.resetOf n).selected = some DecInst.start := by
  simp [State.selected, List.getElem?_replicate]
  omega

end Sys2Proof.Machine
end

