-- ==== Sys2Proof/Laws/Ops.lean ====
section
/-! SUPPORT. What each shared operation, `exec` and `step` can do, said once. -/

namespace Sys2Proof.Machine

/-! Sequencing -/

section AndThen

variable {α β : Type} (f : α → Host.Outcome β Fault Refusal)

@[simp] theorem andThen_next (a : α) : andThen (.next a) f = f a := rfl
@[simp] theorem andThen_refused (r : Refusal) : andThen (.refused r) f = .refused r := rfl
@[simp] theorem andThen_fault (r : Fault) : andThen (.fault r) f = .fault r := rfl

/-- A sequence answers a next state only through a next state of its first part. -/
theorem andThen_eq_next {f : α → Host.Outcome β Fault Refusal} {o : Host.Outcome α Fault Refusal} {b : β}
    (h : andThen o f = .next b) : ∃ a, o = .next a ∧ f a = .next b := by
  cases o with
  | next a => exact ⟨a, rfl, h⟩
  | fault r => cases h
  | refused r => cases h

end AndThen

/-! The two units -/

/-- A decoder operation on an instance that exists: one pair written, one record returned. -/
theorem decoderOp_of_selected {f : DecInst → DecInst × DecResult} {s : State} {d : DecInst}
    (h : s.selected = some d) :
    decoderOp f s = .next ((s.putSelected (f d).1).returns (.dec (f d).2)) := by
  simp [decoderOp, h]

/-- A decoder operation on an instance that does not exist is refused. -/
theorem decoderOp_of_none {f : DecInst → DecInst × DecResult} {s : State} (h : s.selected = none) :
    decoderOp f s = .refused .noSuchInstance := by
  simp [decoderOp, h]

/-- All a decoder operation can do when it answers a next state. -/
theorem decoderOp_eq_next {f : DecInst → DecInst × DecResult} {s t : State} (h : decoderOp f s = .next t) :
    ∃ d, s.selected = some d ∧ t = (s.putSelected (f d).1).returns (.dec (f d).2) := by
  cases hs : s.selected with
  | none => simp [decoderOp_of_none hs] at h
  | some d =>
    rw [decoderOp_of_selected hs] at h
    exact ⟨d, rfl, (Host.Outcome.next.inj h).symm⟩

/-- All an encoder operation can do. -/
theorem encoderOp_eq_next {r : EncResult} {s t : State} (h : encoderOp r s = .next t) :
    t = s.returns (.enc r) :=
  (Host.Outcome.next.inj h).symm

/-! The operations -/

/-- What an operation does to the pair of the instance it is issued to, and the record it returns; none for an
operation of the encoder. -/
def decEffect : Instr → Option (DecInst → DecInst × DecResult)
  | .decInit => some initInst
  | .decStep b => some (stepInst b)
  | .decVstep b => some (vstepInst b)
  | .decFinish => some finishInst
  | .encEncode _ => none
  | .encLength _ => none

/-- The record of an operation of the encoder; none for an operation of a decoder instance. -/
def encRecord : Instr → Option EncResult
  | .decInit => none
  | .decStep _ => none
  | .decVstep _ => none
  | .decFinish => none
  | .encEncode v => some (encodeResult v)
  | .encLength v => some (lengthResult v)

/-- Every operation is one operation of one of the two units. -/
theorem exec_unit (i : Instr) :
    (∃ f, decEffect i = some f ∧ encRecord i = none ∧ ∀ s, exec i s = decoderOp f s) ∨
    (∃ r, encRecord i = some r ∧ decEffect i = none ∧ ∀ s, exec i s = encoderOp r s) := by
  cases i with
  | decInit => exact .inl ⟨_, rfl, rfl, fun _ => rfl⟩
  | decStep b => exact .inl ⟨_, rfl, rfl, fun _ => rfl⟩
  | decVstep b => exact .inl ⟨_, rfl, rfl, fun _ => rfl⟩
  | decFinish => exact .inl ⟨_, rfl, rfl, fun _ => rfl⟩
  | encEncode v => exact .inr ⟨_, rfl, rfl, fun _ => rfl⟩
  | encLength v => exact .inr ⟨_, rfl, rfl, fun _ => rfl⟩

/-- All `exec` can do when it answers a next state: a decoder operation writes the addressed pair and returns
its record; an encoder operation only returns its record. -/
theorem exec_eq_next {i : Instr} {s t : State} (h : exec i s = .next t) :
    (∃ f d, decEffect i = some f ∧ s.selected = some d ∧
      t = (s.putSelected (f d).1).returns (.dec (f d).2)) ∨
    (∃ r, encRecord i = some r ∧ t = s.returns (.enc r)) := by
  rcases exec_unit i with ⟨f, hf, -, he⟩ | ⟨r, hr, -, he⟩
  · obtain ⟨d, hd, ht⟩ := decoderOp_eq_next (he s ▸ h)
    exact .inl ⟨f, d, hf, hd, ht⟩
  · exact .inr ⟨r, hr, encoderOp_eq_next (he s ▸ h)⟩

/-- A decoder operation on an instance that exists. -/
theorem exec_of_selected {i : Instr} {s : State} {f : DecInst → DecInst × DecResult} {d : DecInst}
    (hi : decEffect i = some f) (h : s.selected = some d) :
    exec i s = .next ((s.putSelected (f d).1).returns (.dec (f d).2)) := by
  rcases exec_unit i with ⟨g, hg, -, he⟩ | ⟨r, -, hn, -⟩
  · cases hg.symm.trans hi
    rw [he, decoderOp_of_selected h]
  · rw [hn] at hi; cases hi

/-- An operation of the encoder, in any state. -/
theorem exec_of_encRecord {i : Instr} {r : EncResult} (hi : encRecord i = some r) (s : State) :
    exec i s = .next (s.returns (.enc r)) := by
  rcases exec_unit i with ⟨g, -, hn, -⟩ | ⟨r', hr, -, he⟩
  · rw [hn] at hi; cases hi
  · cases hr.symm.trans hi
    rw [he]; rfl

/-! The step -/

/-- All `step` can do when it answers a next state: nothing, if nothing is issued; otherwise the oldest
request is legal and is performed. -/
theorem step_eq_next {s t : State} (h : step s = .next t) :
    (s.pending = [] ∧ t = s) ∨
    (∃ r rest i, s.pending = r :: rest ∧ decode r.word = .op i ∧ exec i (s.accepts r.inst rest) = .next t) := by
  cases hp : s.pending with
  | nil =>
    simp [step, State.fetch, hp] at h
    exact .inl ⟨rfl, h.symm⟩
  | cons r rest =>
    cases hd : decode r.word with
    | reserved why => simp [step, State.fetch, hp, hd] at h
    | op i =>
      simp [step, State.fetch, hp, hd] at h
      exact .inr ⟨r, rest, i, rfl, hd, h⟩

/-- The host's placing of a word, and the step that follows. -/
theorem fetch_withFetchWord (s : State) (nbits w : Nat) :
    (s.withFetchWord nbits w).fetch = some ({ inst := s.sel, word := reqWordOfTable nbits w }, s.pending) := rfl

end Sys2Proof.Machine
end

