-- ==== Sys2Proof/Laws/Driver.lean ====
section
/-! SUPPORT. What a list of operations, and the loop of the reference driver, do to the one instance they are
issued to: every claim about streams reduces to one pair (`STATE`, `ACC`). -/

namespace Sys2Proof.Machine

/-! A list of steps -/

/-- The steps of a byte string on one pair, and their records. -/
def instRun (f : Byte → DecInst → DecInst × DecResult) : List Byte → DecInst → DecInst × List DecResult
  | [], d => (d, [])
  | b :: bs, d => ((instRun f bs (f b d).1).1, (f b d).2 :: (instRun f bs (f b d).1).2)

@[simp] theorem instRun_nil (f : Byte → DecInst → DecInst × DecResult) (d : DecInst) :
    instRun f [] d = (d, []) := rfl

@[simp] theorem instRun_cons (f : Byte → DecInst → DecInst × DecResult) (b : Byte) (bs : List Byte)
    (d : DecInst) :
    instRun f (b :: bs) d =
      ((instRun f bs (f b d).1).1, (f b d).2 :: (instRun f bs (f b d).1).2) := rfl

theorem instRun_length (f : Byte → DecInst → DecInst × DecResult) (bs : List Byte) (d : DecInst) :
    (instRun f bs d).2.length = bs.length := by
  induction bs generalizing d with
  | nil => rfl
  | cons b bs ih => simp [ih]

@[simp] theorem decRecords_map_dec (rs : List DecResult) : decRecords (rs.map .dec) = rs := by
  induction rs with
  | nil => rfl
  | cons r rs ih => simp [decRecords]

/-- Steps issued one after another: the addressed pair takes them in order, nothing else changes, and the
records are the pair's. -/
theorem issueAll_steps {op : Byte → Instr} {f : Byte → DecInst → DecInst × DecResult}
    (hop : ∀ b, decEffect (op b) = some (f b)) (bs : List Byte) {s : State} {d : DecInst}
    (h : s.selected = some d) :
    ∃ t, issueAll (bs.map op) s = .next (t, (instRun f bs d).2.map .dec) ∧
      t.selected = some (instRun f bs d).1 ∧ t.insts = s.insts.set s.sel (instRun f bs d).1 ∧
      t.sel = s.sel ∧ t.pending = s.pending := by
  induction bs generalizing s d with
  | nil =>
    have hlt : s.sel < s.insts.length := (List.getElem?_eq_some_iff.mp h).1
    have hget : s.insts[s.sel] = d := (List.getElem?_eq_some_iff.mp h).2
    refine ⟨s, rfl, h, ?_, rfl, rfl⟩
    rw [instRun_nil, ← hget, List.set_getElem_self]
  | cons b bs ih =>
    have hsel := State.putSelected_selected h (f b d).1
    obtain ⟨t, ht, hs, hi, hl, hp⟩ := ih (s := (s.putSelected (f b d).1).returns (.dec (f b d).2)) hsel
    refine ⟨t, ?_, hs, ?_, hl, hp⟩
    · simp [issueAll, exec_of_selected (hop b) h, ht]
    · simpa using hi

/-! The loop of the driver -/

/-- Presenting one byte to one pair: the step, and for `initAfterReject` the start pair after a `REJECT`. -/
def instPresent (f : Byte → DecInst → DecInst × DecResult) (p : Policy) (b : Byte) (d : DecInst) : DecInst :=
  if p = .initAfterReject ∧ (f b d).2.rej = true then DecInst.start else (f b d).1

/-- The driver's loop on one pair. -/
def instLoop (f : Byte → DecInst → DecInst × DecResult) (p : Policy) (bs : List Byte) :
    Nat → DecInst → Driver → DecInst × Driver
  | 0, d, g => (d, g)
  | n + 1, d, g =>
    match bs[g.cursor]? with
    | none => (d, g)
    | some b => instLoop f p bs n (instPresent f p b d) (g.take p (f b d).2)

/-- Presenting one byte, said once: the addressed pair takes it, nothing else changes but the record. -/
theorem presentByte_eq {op : Byte → Instr} {f : Byte → DecInst → DecInst × DecResult}
    (hop : ∀ b, decEffect (op b) = some (f b)) (p : Policy) (b : Byte) {s : State} {d : DecInst}
    (h : s.selected = some d) (g : Driver) :
    ∃ t, presentByte op p b s g = .next (t, g.take p (f b d).2) ∧
      t.selected = some (instPresent f p b d) ∧ t.insts = s.insts.set s.sel (instPresent f p b d) ∧
      t.sel = s.sel ∧ t.pending = s.pending := by
  have hsel := State.putSelected_selected h (f b d).1
  by_cases hp : p = .initAfterReject ∧ (f b d).2.rej = true
  · have hx := exec_of_selected (i := .decInit) (f := initInst) rfl
      (s := (s.putSelected (f b d).1).returns (.dec (f b d).2)) hsel
    refine ⟨(((s.putSelected (f b d).1).returns (.dec (f b d).2)).putSelected DecInst.start).returns
      (.dec (quietResult false)), ?_, ?_, ?_, rfl, rfl⟩
    · rw [presentByte, exec_of_selected (hop b) h, andThen_next, if_pos (by exact hp), hx]
      rfl
    · rw [instPresent, if_pos hp]
      exact State.putSelected_selected hsel _
    · simp [instPresent, if_pos hp]
  · refine ⟨(s.putSelected (f b d).1).returns (.dec (f b d).2), ?_, ?_, ?_, rfl, rfl⟩
    · rw [presentByte, exec_of_selected (hop b) h, andThen_next, if_neg (by exact hp)]
      rfl
    · rw [instPresent, if_neg hp]
      exact hsel
    · rw [instPresent, if_neg hp]
      rfl

/-- The driver's loop, said once: it is the loop on the addressed pair, and nothing else changes but the
record. -/
theorem decodeLoop_eq {op : Byte → Instr} {f : Byte → DecInst → DecInst × DecResult}
    (hop : ∀ b, decEffect (op b) = some (f b)) (p : Policy) (bs : List Byte) (n : Nat) {s : State}
    {d : DecInst} (h : s.selected = some d) (g : Driver) :
    ∃ t, decodeLoop op p bs n s g = .next (t, (instLoop f p bs n d g).2) ∧
      t.selected = some (instLoop f p bs n d g).1 ∧ t.insts = s.insts.set s.sel (instLoop f p bs n d g).1 ∧
      t.sel = s.sel ∧ t.pending = s.pending := by
  have stay : ∀ {s : State} {d : DecInst}, s.selected = some d → s.insts = s.insts.set s.sel d := by
    intro s d h
    obtain ⟨hlt, hget⟩ := List.getElem?_eq_some_iff.mp h
    rw [← hget, List.set_getElem_self]
  induction n generalizing s d g with
  | zero => exact ⟨s, rfl, h, stay h, rfl, rfl⟩
  | succ n ih =>
    cases hb : bs[g.cursor]? with
    | none =>
      refine ⟨s, ?_, ?_, ?_, rfl, rfl⟩
      · simp [decodeLoop, instLoop, hb]
      · simpa [instLoop, hb] using h
      · simpa [instLoop, hb] using stay h
    | some b =>
      obtain ⟨t, ht, hs, hi, hl, hq⟩ := presentByte_eq hop p b h g
      obtain ⟨u, hu, us, ui, ul, uq⟩ := ih hs (g.take p (f b d).2)
      refine ⟨u, ?_, ?_, ?_, ?_, ?_⟩
      · simp [decodeLoop, instLoop, hb, ht, hu]
      · simpa [instLoop, hb] using us
      · rw [ui, hi, hl]
        simp [instLoop, hb]
      · rw [ul, hl]
      · rw [uq, hq]

/-- A whole stream, said once: the loop on the start pair; then the start pair, and one error more if the pair
was in progress. -/
theorem runStream_eq {op : Byte → Instr} {f : Byte → DecInst → DecInst × DecResult}
    (hop : ∀ b, decEffect (op b) = some (f b)) (p : Policy) (bs : List Byte) {s : State} {d : DecInst}
    (h : s.selected = some d) :
    ∃ t, runStream op p bs s = .next (t,
        { (instLoop f p bs (2 * bs.length) DecInst.start Driver.start).2 with
          nErr := (instLoop f p bs (2 * bs.length) DecInst.start Driver.start).2.nErr +
            (instLoop f p bs (2 * bs.length) DecInst.start Driver.start).1.state.inProgress.toNat }) ∧
      t.result = some (.dec (quietResult
        (instLoop f p bs (2 * bs.length) DecInst.start Driver.start).1.state.inProgress)) ∧
      t.insts = s.insts.set s.sel DecInst.start ∧ t.sel = s.sel ∧ t.pending = s.pending := by
  have h0 : exec .decInit s = _ := exec_of_selected (i := .decInit) rfl h
  have hs0 := State.putSelected_selected h DecInst.start
  obtain ⟨t, ht, ts, ti, tl, tp⟩ := decodeLoop_eq hop p bs (2 * bs.length)
    (s := (s.putSelected DecInst.start).returns (.dec (quietResult false))) hs0 Driver.start
  have h1 : exec .decFinish t = _ := exec_of_selected (i := .decFinish) rfl ts
  refine ⟨(t.putSelected DecInst.start).returns (.dec (quietResult
    (instLoop f p bs (2 * bs.length) DecInst.start Driver.start).1.state.inProgress)), ?_, rfl, ?_, tl, tp⟩
  · rw [runStream, h0, andThen_next]
    simp only [initInst]
    rw [ht, andThen_next, finishStream, h1, andThen_next]
    rfl
  · simp [ti, tl]

end Sys2Proof.Machine
end

