-- ==== Sys2Proof/Laws/PerInstr.lean ====
section
/-! SUPPORT. A statement about every operation as syntax, one lemma for each constructor: its request word
carries the code and the operand of the opcode map (30_encoding.md R40, R41, R50). -/

namespace Sys2Proof.Laws.EncodedFields

/-- The word of a well-formed operation has the operation's code in `req[35:32]` and its operand in
`req[31:0]`. -/
def Statement (i : Instr) : Prop :=
  i.wf = true ∧ opField (encode i) = i.opcode.code ∧ argField (encode i) = i.arg

theorem append_toNat (c : BitVec 4) (a : Scalar) : (c ++ a).toNat = c.toNat * 2 ^ 32 + a.toNat := by
  rw [BitVec.toNat_append, ← Nat.shiftLeft_add_eq_or_of_lt a.isLt, Nat.shiftLeft_eq]

theorem opField_append (c : BitVec 4) (a : Scalar) : opField (c ++ a) = c := by
  apply BitVec.eq_of_toNat_eq
  have ha := a.isLt
  have hc := c.isLt
  rw [opField, BitVec.extractLsb'_toNat, Nat.shiftRight_eq_div_pow, append_toNat]
  omega

theorem argField_append (c : BitVec 4) (a : Scalar) : argField (c ++ a) = a := by
  apply BitVec.eq_of_toNat_eq
  have ha := a.isLt
  rw [argField, BitVec.extractLsb'_toNat, Nat.shiftRight_zero, append_toNat]
  omega

theorem of_append {i : Instr} (h : i.wf = true) : Statement i :=
  ⟨h, opField_append _ _, argField_append _ _⟩

theorem decInit : Statement .decInit := of_append rfl
theorem decStep (b : Byte) : Statement (.decStep b) := of_append rfl
theorem decVstep (b : Byte) : Statement (.decVstep b) := of_append rfl
theorem decFinish : Statement .decFinish := of_append rfl
theorem encEncode (v : Scalar) : Statement (.encEncode v) := of_append rfl
theorem encLength (v : Scalar) : Statement (.encLength v) := of_append rfl

end Sys2Proof.Laws.EncodedFields
end

