-- ==== Sys2Proof/Laws/Words.lean ====
section
/-! SUPPORT. Request words, their fields and the packed records as numbers (30_encoding.md R40, R46, R47), so
that a claim about bits becomes arithmetic. -/

namespace Sys2Proof

theorem opField_toNat (w : ReqWord) : (opField w).toNat = w.toNat / 2 ^ 32 := by
  have := w.isLt
  simp [opField, Nat.shiftRight_eq_div_pow]
  omega

theorem argField_toNat (w : ReqWord) : (argField w).toNat = w.toNat % 2 ^ 32 := by
  simp [argField]

theorem zeroField_toNat (w : ReqWord) : (zeroField w).toNat = w.toNat % 2 ^ 32 / 2 ^ 8 := by
  simp [zeroField, Nat.shiftRight_eq_div_pow]
  omega

theorem byteField_toNat (w : ReqWord) : (byteField w).toNat = w.toNat % 2 ^ 8 := by
  simp [byteField]

theorem encode_toNat (i : Instr) : (encode i).toNat = i.opcode.code.toNat * 2 ^ 32 + i.arg.toNat :=
  Laws.EncodedFields.append_toNat i.opcode.code i.arg

/-- The operand field is 0 exactly when the number's low part is. -/
theorem argField_eq_zero_iff (w : ReqWord) : argField w = 0#32 ↔ w.toNat % 2 ^ 32 = 0 := by
  rw [← argField_toNat]
  exact ⟨fun h => by rw [h]; rfl, fun h => BitVec.eq_of_toNat_eq h⟩

/-- The bits format B wants to be 0 are, exactly when the number's low part is a byte. -/
theorem zeroField_eq_zero_iff (w : ReqWord) : zeroField w = 0#24 ↔ w.toNat % 2 ^ 32 < 256 := by
  have h := zeroField_toNat w
  refine ⟨fun hz => ?_, fun hz => BitVec.eq_of_toNat_eq ?_⟩
  · rw [hz] at h; simp at h; omega
  · rw [h]; simp; omega

/-- One more field below a word. -/
theorem append_toNat {m n : Nat} (x : BitVec m) (y : BitVec n) : (x ++ y).toNat = x.toNat * 2 ^ n + y.toNat := by
  rw [BitVec.toNat_append, ← Nat.shiftLeft_add_eq_or_of_lt y.isLt, Nat.shiftLeft_eq]

namespace Machine

/-- The packed decoder record as a number (30_encoding.md R46). -/
theorem DecResult.pack_toNat (r : DecResult) :
    (DecResult.pack r).toNat = (r.out.getD 0#21).toNat * 2 ^ 9 + r.out.isSome.toNat * 2 ^ 8 +
      r.replay.toNat * 2 ^ 7 + r.err.toNat * 2 ^ 6 + r.rej.toNat * 2 ^ 5 + r.done.toNat * 2 ^ 4 +
      r.state.code.toNat := by
  unfold DecResult.pack
  repeat rw [append_toNat]
  simp only [BitVec.toNat_ofBool]
  omega

/-- The packed encoder record as a number (30_encoding.md R47). -/
theorem EncResult.pack_toNat (r : EncResult) :
    (EncResult.pack r).toNat = r.b3.toNat * 2 ^ 28 + r.b2.toNat * 2 ^ 20 + r.b1.toNat * 2 ^ 12 +
      r.b0.toNat * 2 ^ 4 + r.err.toNat * 2 ^ 3 + r.len.toNat := by
  unfold EncResult.pack
  repeat rw [append_toNat]
  simp only [BitVec.toNat_ofBool]
  omega

end Machine

end Sys2Proof
end

