-- ==== Sys2Proof/Tests/Slice0.lean ====
section
/-! SUPPORT. The author's own tests: the well-formedness smoke test, words written out bit by bit from the
spec's encodings, one-step results taken from 95_test_vectors.md, and for each obligation with hypotheses a
concrete state and operands that meet them. Every expected value comes from spec/. -/

namespace Sys2Proof.Tests

open Sys2Proof Sys2Proof.Machine

/-- A machine of two instances that addresses instance 1, which holds the pair `(st, a)`. -/
def machine (st : DecState) (a : Acc) : State :=
  { insts := [DecInst.start, { state := st, acc := a }], sel := 1, pending := [], result := none }

/-- The next state of an outcome, if it is one. -/
def nextOf {α : Type} (o : Host.Outcome α Fault Refusal) : Option α :=
  match o with
  | .next a => some a
  | .fault _ => none
  | .refused _ => none

/-- The refusal of an outcome, if it is one. -/
def refusalIn {α : Type} (o : Host.Outcome α Fault Refusal) : Option Refusal :=
  match o with
  | .next _ => none
  | .fault _ => none
  | .refused r => some r

/-- The pairs and the packed decoder record after an outcome. -/
def decAfter (o : Host.Outcome State Fault Refusal) : Option (List DecInst × BitVec 30) :=
  (nextOf o).map fun t => (t.insts, t.lastDec.pack)

/-- The pairs and the packed encoder record after an outcome. -/
def encAfter (o : Host.Outcome State Fault Refusal) : Option (List DecInst × BitVec 36) :=
  (nextOf o).map fun t => (t.insts, t.lastEnc.pack)

/-- The scalars handed out and the two counts of a stream (42_reference_driver.md R81). -/
def streamAfter (o : Host.Outcome (State × Driver) Fault Refusal) : Option (List Acc × Nat × Nat) :=
  (nextOf o).map fun t => (t.2.outs, t.2.nOk, t.2.nErr)

/-! Well-formedness: for each check an ill-formed term, and a well-formed neighbour (R43, 2.7) -/

theorem test_wf_reserved_op : ReqWord.wf 0x600000000#36 = false ∧ ReqWord.wf 0xF00000000#36 = false ∧
    ReqWord.wf 0x50010FFFF#36 = true := by decide
theorem test_wf_format_n_arg : ReqWord.wf 0x000000001#36 = false ∧ ReqWord.wf 0x3FFFFFFFF#36 = false ∧
    ReqWord.wf 0x300000000#36 = true := by decide
theorem test_wf_format_b_high_bits : ReqWord.wf 0x100000100#36 = false ∧ ReqWord.wf 0x180000041#36 = false ∧
    ReqWord.wf 0x200010000#36 = false ∧ ReqWord.wf 0x1000000FF#36 = true := by decide
theorem test_wf_operand_missing : RawOp.wf ⟨.decStep, none⟩ = false ∧ RawOp.wf ⟨.encLength, none⟩ = false ∧
    RawOp.wf ⟨.decInit, none⟩ = true := by decide
theorem test_wf_operand_unexpected : RawOp.wf ⟨.decInit, some 0⟩ = false ∧
    RawOp.wf ⟨.decFinish, some 1⟩ = false := by decide
theorem test_wf_operand_too_large : RawOp.wf ⟨.decStep, some 256⟩ = false ∧
    RawOp.wf ⟨.decVstep, some 256⟩ = false ∧ RawOp.wf ⟨.decVstep, some 255⟩ = true ∧
    RawOp.wf ⟨.encEncode, some 0x100000000⟩ = false ∧ RawOp.wf ⟨.encLength, some 0x100000000⟩ = false ∧
    RawOp.wf ⟨.encEncode, some 0xFFFFFFFF⟩ = true := by decide
theorem test_wf_no_such_target : Request.wf 2 ⟨2, 0x1000000FF#36⟩ = false ∧
    Request.wf 2 ⟨1, 0x1000000FF#36⟩ = true ∧ Request.wf 2 ⟨2, 0x400000041#36⟩ = true ∧
    Request.wf 2 ⟨0, 0x600000000#36⟩ = false := by decide
theorem test_wf_operations : [Instr.decInit, .decStep 0xFF#8, .decVstep 0x00#8, .decFinish,
    .encEncode 0xFFFFFFFF#32, .encLength 0x0#32].all Instr.wf = true := by decide

/-! Decoding: words written out bit by bit from the table's encodings; reserved words by name (2.7) -/

theorem test_decode_init :
    decode (0b0000#4 ++ 0b00000000000000000000000000000000#32) = .op .decInit := by decide
theorem test_decode_step :
    decode (0b0001#4 ++ 0b000000000000000000000000#24 ++ 0b11100010#8) = .op (.decStep 0xE2#8) := by decide
theorem test_decode_vstep :
    decode (0b0010#4 ++ 0b000000000000000000000000#24 ++ 0b10000010#8) = .op (.decVstep 0x82#8) := by decide
theorem test_decode_finish :
    decode (0b0011#4 ++ 0b00000000000000000000000000000000#32) = .op .decFinish := by decide
theorem test_decode_encode :
    decode (0b0100#4 ++ 0b10000000000000000010000010101100#32) = .op (.encEncode 0x800020AC#32) := by decide
theorem test_decode_length :
    decode (0b0101#4 ++ 0b00000000000100001111111111111111#32) = .op (.encLength 0x10FFFF#32) := by decide
theorem test_decode_reserved : decode 0x600000000#36 = .reserved .opcode ∧
    decode 0xFFFFFFFFF#36 = .reserved .opcode ∧ decode 0x000000001#36 = .reserved .operandOfFormatN ∧
    decode 0x3FFFFFFFF#36 = .reserved .operandOfFormatN ∧
    decode 0x100000100#36 = .reserved .operandOfFormatB ∧
    decode 0x200010000#36 = .reserved .operandOfFormatB := by decide
theorem test_table_word : decodeTableWord 40 0x1000000FF = some (.decStep 0xFF#8) ∧
    decodeTableWord 40 0x100000100 = none := by decide

/-! The tables at their boundaries (2.1, R23) -/

theorem test_class_boundaries :
    [0x00, 0x7F, 0x80, 0x8F, 0x90, 0x9F, 0xA0, 0xBF, 0xC0, 0xC1, 0xC2, 0xDF, 0xE0, 0xE1, 0xEC, 0xED, 0xEE, 0xEF,
      0xF0, 0xF1, 0xF3, 0xF4, 0xF5, 0xF8, 0xFF].map (fun b => (classRom (BitVec.ofNat 8 b)).code.toNat) =
    [0, 0, 1, 1, 2, 2, 3, 3, 11, 11, 4, 4, 6, 5, 5, 7, 5, 5, 9, 8, 8, 10, 12, 12, 12] := by decide
theorem test_bit_level_padding : transRomBits 0x0D#8 = 1#4 ∧ transRomBits 0x90#8 = 1#4 ∧
    transRomBits 0x81#8 = 3#4 ∧ seedMaskBits 13#4 = 0#7 ∧ seedMaskBits 8#4 = 0x07#7 := by decide

/-! One operation (2.2, 2.3, 2.5) -/

theorem test_init : decAfter (exec .decInit (machine .cont2 0x2#21)) =
    some ([DecInst.start, ⟨.accept, 0#21⟩], 0x00000000#30) := by decide
theorem test_step_largest_scalar : decAfter (exec (.decStep 0xBF#8) (machine .cont1 0x43FF#21)) =
    some ([DecInst.start, ⟨.accept, 0x10FFFF#21⟩], 0x10FFFF#21 ++ 0b100010000#9) := by decide
theorem test_step_rejects_in_progress : decAfter (exec (.decStep 0x90#8) (machine .cont3F4 0x4#21)) =
    some ([DecInst.start, ⟨.reject, 0#21⟩], 0x01FFFBE1#30) := by decide
theorem test_vstep_keeps_acc : decAfter (exec (.decVstep 0x82#8) (machine .cont2 0x41#21)) =
    some ([DecInst.start, ⟨.cont1, 0x41#21⟩], 0x00000002#30) := by decide
theorem test_vstep_rejects : decAfter (exec (.decVstep 0x41#8) (machine .cont1 0x41#21)) =
    some ([DecInst.start, ⟨.reject, 0x41#21⟩], 0x000000E1#30) := by decide
theorem test_finish_truncated : decAfter (exec .decFinish (machine .cont1 0x82#21)) =
    some ([DecInst.start, ⟨.accept, 0#21⟩], 0x00000040#30) := by decide
theorem test_finish_after_reject : decAfter (exec .decFinish (machine .reject 0#21)) =
    some ([DecInst.start, ⟨.accept, 0#21⟩], 0x00000000#30) := by decide
theorem test_encode_four_bytes : encAfter (exec (.encEncode 0x10348#32) (machine .cont1 0x82#21)) =
    some ([DecInst.start, ⟨.cont1, 0x82#21⟩], 0x888D90F04#36) := by decide
theorem test_encode_surrogate : encAfter (exec (.encEncode 0xD800#32) (machine .cont1 0x82#21)) =
    some ([DecInst.start, ⟨.cont1, 0x82#21⟩], 0x000000008#36) := by decide
theorem test_length_three : encAfter (exec (.encLength 0x20AC#32) (machine .accept 0#21)) =
    some ([DecInst.start, ⟨.accept, 0#21⟩], 0x000000003#36) := by decide
theorem test_length_bit_31 : encAfter (exec (.encLength 0x80000000#32) (machine .accept 0#21)) =
    some ([DecInst.start, ⟨.accept, 0#21⟩], 0x000000008#36) := by decide

/-! The step -/

theorem test_first_step_after_reset :
    decAfter (step (State.reset.withFetchWord 40 0x1000000E2)) =
      some ([⟨.cont2, 0x2#21⟩, DecInst.start], 0x00000003#30) := by decide
theorem test_step_refuses_reserved :
    refusalIn (step (State.reset.withFetchWord 40 0x600000000)) = some .reservedOpcode ∧
    refusalIn (step (State.reset.withFetchWord 40 0x300000001)) = some .reservedOperand := by decide
theorem test_step_idle : nextOf (step (machine .cont1 0x82#21)) = some (machine .cont1 0x82#21) := by decide
theorem test_run_two_requests :
    (nextOf (State.run 2 (((machine .accept 0#21).issue ⟨0, 0x1000000E2#36⟩).issue ⟨1, 0x1000000C2#36⟩))).map
      (fun t => t.1.insts) = some [⟨.cont2, 0x2#21⟩, ⟨.cont1, 0x2#21⟩] := by decide

/-! Streams and assembler lines (2.4, 2.5, section 3) -/

theorem test_stream_replay : streamAfter (decodeStream [0xE2#8, 0x41#8, 0x42#8] State.reset) =
    some ([0xFFFD#21, 0x41#21, 0x42#21], 2, 1) := by decide
theorem test_encode_stream : (nextOf (encodeStream [0x41#32, 0xD800#32, 0x42#32] State.reset)).map
    (fun t => (t.2.bytes, t.2.nOk, t.2.nErr)) =
    some ([0x41#8, 0xEF#8, 0xBF#8, 0xBD#8, 0x42#8], 2, 1) := by decide
theorem test_line_step : assemble "DEC.STEP   0xE2".toList = some 0x1000000E2#36 := by decide
theorem test_line_comment : assemble "ENC.LENGTH 8364 ; euro".toList = some 0x5000020AC#36 := by decide
theorem test_line_pseudo : parseLine "DEC.STRING 0xE2 0x82".toList =
    .pseudo (.decString [0xE2#8, 0x82#8]) := by decide
theorem test_line_bad : parseLine "DEC.STEP 0x100".toList = .bad ∧ parseLine "DEC.INIT 0".toList = .bad ∧
    parseLine "; only a comment".toList = .blank := by decide

/-! Witnesses: for each obligation with hypotheses, a state and operands that meet all of them -/

/-- The addressed instance of the test machine exists, whatever pair it holds. -/
theorem machine_addressed (st : DecState) (a : Acc) :
    (machine st a).insts[(machine st a).sel]? = some { state := st, acc := a } := rfl

theorem witness_DecInitStartsTheStream :
    (machine .cont2 0x2#21).insts[(machine .cont2 0x2#21).sel]? = some ⟨.cont2, 0x2#21⟩ := rfl

/-- One input for each case: a `REJECT`, a step in each START state, and a step in an IN-PROGRESS state that
shifts bits out. -/
theorem witness_DecStepResult :
    (machine .cont1 0x1FFFFF#21).insts[(machine .cont1 0x1FFFFF#21).sel]? = some ⟨.cont1, 0x1FFFFF#21⟩ ∧
    transRom .cont1 (classRom 0xBF#8) = .accept ∧ transRom .cont1 (classRom 0xC0#8) = .reject ∧
    transRom .accept (classRom 0xF4#8) = .cont3F4 ∧ transRom .reject (classRom 0x7F#8) = .accept ∧
    transRom .reject (classRom 0x80#8) = .reject ∧
    BitVec.ofNat 21 (0x1FFFFF * 64 + 0xBF % 64) = 0x1FFFFF#21 := by decide

theorem witness_DecVstepResult :
    (machine .cont3F4 0x4#21).insts[(machine .cont3F4 0x4#21).sel]? = some ⟨.cont3F4, 0x4#21⟩ ∧
    transRom .cont3F4 (classRom 0x8F#8) = .cont2 ∧ transRom .cont3F4 (classRom 0x90#8) = .reject := by decide

theorem witness_DecFinishResult :
    (machine .cont3 0x1#21).insts[(machine .cont3 0x1#21).sel]? = some ⟨.cont3, 0x1#21⟩ ∧
    DecState.cont3 ≠ .accept ∧ DecState.cont3 ≠ .reject := by decide

/-- The six ranges of R70 at their boundaries: the lengths of 95_test_vectors.md 2.5. -/
theorem witness_EncEncodeResult :
    [0x0, 0x7F, 0x80, 0x7FF, 0x800, 0xD7FF, 0xD800, 0xDFFF, 0xE000, 0xFFFF, 0x10000, 0x10FFFF, 0x110000,
      0xFFFFFFFF].map (fun n => (encLen (BitVec.ofNat 32 n)).toNat) =
    [1, 1, 2, 2, 3, 3, 0, 0, 3, 3, 4, 4, 0, 0] := by decide

/-- The same boundaries for the lengths `ENC.LENGTH` reports (2.5). -/
theorem witness_EncLengthResult :
    [0x7F, 0x80, 0x7FF, 0x800, 0xD7FF, 0xD800, 0xDFFF, 0xE000, 0xFFFF, 0x10000, 0x10FFFF, 0x110000].map
      (fun n => ((lengthResult (BitVec.ofNat 32 n)).len.toNat, (lengthResult (BitVec.ofNat 32 n)).err)) =
    [(1, false), (2, false), (2, false), (3, false), (3, false), (0, true), (0, true), (3, false), (3, false),
      (4, false), (4, false), (0, true)] := by decide

theorem witness_SeedMaskCells : seedMask .lead3E0 = 0x0F#7 ∧ seedMask .lead4F4 = 0x07#7 ∧
    seedMask .invOverlong = 0#7 := by decide

theorem witness_DecoderRecordLayout :
    ((nextOf (exec (.decStep 0x90#8) (machine .cont3F4 0x4#21))).map fun t => (t.result, t.insts[1]?)) =
      some (some (.dec ⟨.reject, false, true, true, true, some 0xFFFD#21⟩), some ⟨.reject, 0#21⟩) ∧
    agentOf (.decStep 0x90#8) 1 = .decoder 1 := by decide

theorem witness_EncoderRecordLayout : (encodeResult 0x80#32).len.toNat ≤ 2 ∧ (2 : Nat) < 4 := by decide

theorem witness_DemandedRejections :
    (machine .reject 0#21).insts[(machine .reject 0#21).sel]? = some ⟨.reject, 0#21⟩ ∧
    DecState.reject.isStart = true ∧
    [(0xE0, 0x80), (0xE0, 0x9F), (0xED, 0xA0), (0xED, 0xBF), (0xF0, 0x80), (0xF0, 0x8F), (0xF4, 0x90),
      (0xF4, 0xBF)].all (fun p => (transRom (transRom .reject (classRom (BitVec.ofNat 8 p.1)))
        (classRom (BitVec.ofNat 8 p.2))).isReject) = true := by decide

/-- Both ends of each row's range, and the bytes just outside. -/
theorem witness_InProgressStates :
    [(DecState.cont1, 0x7F, 0x80, 0xBF, 0xC0), (.cont2E0, 0x9F, 0xA0, 0xBF, 0xC0), (.cont2ED, 0x7F, 0x80, 0x9F, 0xA0),
      (.cont3F0, 0x8F, 0x90, 0xBF, 0xC0), (.cont3F4, 0x7F, 0x80, 0x8F, 0x90)].map
      (fun r => [r.2.1, r.2.2.1, r.2.2.2.1, r.2.2.2.2].map
        (fun n => (transRom r.1 (classRom (BitVec.ofNat 8 n))).isReject)) =
    List.replicate 5 [true, false, false, true] := by decide

theorem witness_ReservedWordsRefused :
    ({ machine .cont1 0x82#21 with pending := [⟨1, 0x100000100#36⟩] } : State).pending =
      { inst := 1, word := 0x100000100#36 } :: [] ∧
    ReqWord.wf 0x100000100#36 = false ∧ ReqWord.wf 0x5FFFFFFFF#36 = true ∧ ReqWord.wf 0x600000000#36 = false ∧
    ReqWord.wf 0x300000000#36 = true ∧ ReqWord.wf 0x300000001#36 = false := by decide

theorem witness_BitLevelTablesRefineTheStepCore :
    9 ≤ (0x9#4).toNat ∧ 13 ≤ (0xD#4).toNat := by decide

theorem witness_MalformedCause :
    (machine .cont2E0 0#21).insts[(machine .cont2E0 0#21).sel]? = some ⟨.cont2E0, 0#21⟩ ∧
    [0x9F, 0xA0, 0xBF, 0xC0].map (fun n => (transRom .cont2E0 (classRom (BitVec.ofNat 8 n))).isReject) =
      [true, false, false, true] := by decide

theorem witness_TruncatedCause :
    (machine .cont2ED 0xD#21).insts[(machine .cont2ED 0xD#21).sel]? = some ⟨.cont2ED, 0xD#21⟩ ∧
    ((nextOf (exec (.decVstep 0xA0#8) (machine .cont2ED 0xD#21))).map fun t => t.lastDec.rej) = some true := by
  decide

theorem witness_InvalidScalarCause : Instr.encLength = Instr.encEncode ∨ Instr.encLength = Instr.encLength :=
  .inr rfl

/-- One run for each of the three error kinds. -/
theorem witness_ErrorKindEffects :
    ((nextOf (exec (.decVstep 0x41#8) (machine .cont1 0x82#21))).bind fun t => t.result.bind
      (errorKind (.decVstep 0x41#8))) = some .malformed ∧
    ((nextOf (exec .decFinish (machine .cont1 0x82#21))).bind fun t => t.result.bind (errorKind .decFinish)) =
      some .truncated ∧
    ((nextOf (exec (.encLength 0xDFFF#32) (machine .cont1 0x82#21))).bind fun t => t.result.bind
      (errorKind (.encLength 0xDFFF#32))) = some .invalidScalar := by decide

theorem witness_RecordBitLaws :
    ((nextOf (exec (.decStep 0x90#8) (machine .cont3F4 0x4#21))).map fun t =>
      (t.lastDec.err, t.lastDec.rej, t.lastDec.replay, t.lastDec.out)) =
    some (true, true, true, some 0xFFFD#21) := by decide

/-- A step that asks for a replay, and one that rejects without asking. -/
theorem witness_ReplayOnceIsEnough :
    ((nextOf (exec (.decStep 0x41#8) (machine .cont2 0x2#21))).map fun t => t.lastDec.replay) = some true ∧
    ((nextOf (exec (.decStep 0x80#8) (machine .accept 0x41#21))).map fun t =>
      (t.lastDec.rej, t.lastDec.replay)) = some (true, false) := by decide

theorem witness_RejectRecoversByItself :
    (machine .reject 0#21).insts[(machine .reject 0#21).sel]? = some ⟨.reject, 0#21⟩ := rfl

/-- The first and last rows of R62, and the states a stream may be met in. -/
theorem witness_WellFormedDecodedFromEveryState :
    (machine .cont3 0x1#21).insts[(machine .cont3 0x1#21).sel]? = some ⟨.cont3, 0x1#21⟩ ∧
    wfSeq [0xF4#8, 0x8F#8, 0xBF#8, 0xBF#8] = true ∧ payload [0xF4#8, 0x8F#8, 0xBF#8, 0xBF#8] = 0x10FFFF ∧
    wfSeq [0x00#8] = true ∧ wfSeq [0xF4#8, 0x90#8, 0x80#8, 0x80#8] = false := by decide

theorem witness_ErrCountsRejectRuns :
    (machine .cont1 0x82#21).insts[(machine .cont1 0x82#21).sel]? = some ⟨.cont1, 0x82#21⟩ ∧
    DecState.cont1 ≠ .reject ∧ rejectRuns [true, true, false, true] = 2 := by decide

/-- The rows of R62 at both ends of their second byte, and the bytes just outside. -/
theorem witness_AcceptedExactlyTheTable :
    DecState.accept.isStart = true ∧ DecState.reject.isStart = true ∧
    [[0xE0#8, 0xA0#8, 0x80#8], [0xED#8, 0x9F#8, 0xBF#8], [0xF0#8, 0x90#8, 0x80#8, 0x80#8], [0xDF#8, 0xBF#8]].all
      wfSeq = true ∧
    [[], [0xE0#8, 0x9F#8, 0x80#8], [0xED#8, 0xA0#8, 0x80#8], [0xF0#8, 0x8F#8, 0x80#8, 0x80#8], [0xC1#8, 0xBF#8],
      [0x41#8, 0x41#8]].any wfSeq = false := by decide

theorem witness_FirstByteAnnouncesTheLength :
    wfSeq [0xED#8, 0x9F#8, 0xBF#8] = true ∧ (classRom 0xED#8).seqLen = some 3 ∧
    payload [0xED#8, 0x9F#8, 0xBF#8] = 0xD7FF ∧ (classRom 0xC1#8).seqLen = none := by decide

theorem witness_RoundTrip :
    (machine .reject 0#21).insts[(machine .reject 0#21).sel]? = some ⟨.reject, 0#21⟩ ∧
    DecState.reject.isStart = true ∧ (encodeResult 0x10FFFF#32).err = false := by decide

theorem witness_StepAndVstepAgree :
    (machine .cont2 0x2#21).insts[(machine .cont2 0x2#21).sel]? = some ⟨.cont2, 0x2#21⟩ := rfl

theorem witness_OnlyOwnRegistersChange :
    (nextOf (exec (.decStep 0x82#8) (machine .cont2 0x2#21))).isSome = true ∧
    Agent.owns (agentOf (.decStep 0x82#8) 1) 0 = false := by decide

/-- An encoder operation in any two machines; a step in two machines that agree on the addressed pair only. -/
theorem witness_NothingLeaksBetweenInstances :
    agentOf (.encEncode 0x41#32) 1 = .encoder ∧
    (machine .cont2 0x2#21).insts[1]? = (State.putSelected (State.resetOf 1) ⟨.cont2, 0x2#21⟩).insts[0]? ∧
    (machine .cont2 0x2#21).insts[1]? ≠ none := by decide

theorem witness_AccumulatorReadOnlyInProgress :
    (machine .accept 0x41#21).insts[(machine .accept 0x41#21).sel]? = some ⟨.accept, 0x41#21⟩ ∧
    DecState.accept.isStart = true ∧ agentOf (.decStep 0xE2#8) 1 = .decoder 1 := by decide

theorem witness_DifferentAgentsCommute :
    0 < (machine .cont2 0x2#21).insts.length ∧ 1 < (machine .cont2 0x2#21).insts.length ∧ (0 : Nat) ≠ 1 := by
  decide

theorem witness_IdempotentOperations :
    agentOf (.encEncode 0xD800#32) 1 = .encoder ∧
    (nextOf (exec (.encEncode 0xD800#32) (machine .cont1 0x82#21))).isSome = true ∧
    (machine .cont1 0x82#21).insts[(machine .cont1 0x82#21).sel]? = some ⟨.cont1, 0x82#21⟩ := by decide

/-- A request waiting on the other instance; and a machine with none. -/
theorem witness_StepPerformsTheOldestRequest :
    ({ machine .cont1 0x82#21 with pending := [⟨0, 0x1000000E2#36⟩] } : State).pending =
      { inst := 0, word := 0x1000000E2#36 } :: [] ∧
    decode 0x1000000E2#36 = .op (.decStep 0xE2#8) ∧ Instr.wf (.decStep 0xE2#8) = true ∧
    (machine .cont1 0x82#21).pending = [] := by decide

theorem witness_IssuedOperationsPerformedInOrder :
    (machine .cont1 0x82#21).insts[(machine .cont1 0x82#21).sel]? ≠ none := by decide

theorem witness_MissingInstanceRefused :
    agentOf (.decStep 0x41#8) 2 = .decoder 2 ∧
    ({ machine .accept 0#21 with sel := 2 } : State).insts[2]? = none := by decide

theorem witness_LegalMachineNeverStops :
    ({ machine .cont1 0x82#21 with pending := [⟨1, 0x1000000AC#36⟩, ⟨7, 0x4000020AC#36⟩] } : State).legal =
      true := by decide

theorem witness_ResetAndThreeWaysIntoIt : (0 : Nat) < 1 ∧
    1 < (machine .cont1 0x82#21).insts.length ∧
    (machine .cont1 0x82#21).insts[(machine .cont1 0x82#21).sel]? = some ⟨.cont1, 0x82#21⟩ := by decide

/-- A machine at pairs of the table that steps; and the ends of the intervals of R15 with their neighbours. -/
theorem witness_StepKeepsTheTabledPairs :
    ({ machine .cont1 0x43FF#21 with pending := [⟨1, 0x1000000BF#36⟩] } : State).tabled = true ∧
    (nextOf (step { machine .cont1 0x43FF#21 with pending := [⟨1, 0x1000000BF#36⟩] })).isSome = true := by decide

theorem witness_EveryTabledPairOccurs :
    [(DecState.accept, 0xD7FF), (.accept, 0xE000), (.accept, 0x10FFFF), (.reject, 0), (.cont1, 0x2), (.cont1, 0x35F),
      (.cont1, 0x380), (.cont1, 0x43FF), (.cont2, 0x1), (.cont2, 0xC), (.cont2, 0xE), (.cont2, 0x10F),
      (.cont2E0, 0), (.cont2ED, 0xD), (.cont3, 1), (.cont3, 3), (.cont3F0, 0), (.cont3F4, 4)].all
      (fun p => DecInst.tabled ⟨p.1, BitVec.ofNat 21 p.2⟩) = true ∧
    [(DecState.accept, 0xD800), (.accept, 0xDFFF), (.accept, 0x110000), (.cont1, 0x1), (.cont1, 0x360),
      (.cont1, 0x37F), (.cont1, 0x4400), (.cont2, 0), (.cont2, 0xD), (.cont2, 0x110), (.cont3, 4)].any
      (fun p => DecInst.tabled ⟨p.1, BitVec.ofNat 21 p.2⟩) = false := by decide

theorem witness_ShiftLosesNothingInReach :
    (machine .cont1 0x43FF#21).insts[(machine .cont1 0x43FF#21).sel]? = some ⟨.cont1, 0x43FF#21⟩ ∧
    DecInst.tabled ⟨.cont1, 0x43FF#21⟩ = true ∧ DecState.cont1.inProgress = true ∧
    transRom .cont1 (classRom 0xBF#8) ≠ .reject := by decide

theorem witness_DecodeOfEncodeIsTheList :
    (machine .cont1 0x82#21).insts[(machine .cont1 0x82#21).sel]? = some ⟨.cont1, 0x82#21⟩ ∧
    (∀ v ∈ [0xD7FF#32, 0x10FFFF#32], isScalar v.toNat = true) := by
  refine ⟨rfl, fun v hv => ?_⟩
  simp only [List.mem_cons, List.not_mem_nil, or_false] at hv
  rcases hv with rfl | rfl <;> rfl

theorem witness_StreamCounts :
    (machine .cont1 0x82#21).insts[(machine .cont1 0x82#21).sel]? = some ⟨.cont1, 0x82#21⟩ := rfl

theorem witness_ValidateCountsAsDecode :
    (machine .cont2 0x2#21).insts[(machine .cont2 0x2#21).sel]? = some ⟨.cont2, 0x2#21⟩ := rfl

theorem witness_ReplayingEveryFirstRejectIsTheSame :
    (machine .reject 0#21).insts[(machine .reject 0#21).sel]? = some ⟨.reject, 0#21⟩ := rfl

/-- A byte that is replayed and one that is not; a scalar that is substituted and one that is not. -/
theorem witness_ConditionalPseudoOperations :
    (machine .cont1 0x82#21).insts[(machine .cont1 0x82#21).sel]? = some ⟨.cont1, 0x82#21⟩ ∧
    (stepInst 0x41#8 ⟨.cont1, 0x82#21⟩).2.replay = true ∧ (stepInst 0x80#8 ⟨.cont1, 0x82#21⟩).2.replay = false ∧
    isScalar 0xD800 = false ∧ isScalar 0x41 = true := by decide

theorem witness_StringLineIsTheStream :
    (machine .cont3 0x1#21).insts[(machine .cont3 0x1#21).sel]? = some ⟨.cont3, 0x1#21⟩ := rfl

theorem witness_AssembledWords :
    RawOp.wf ⟨.decStep, some 0xE2⟩ = true ∧ instrOfRaw ⟨.decStep, some 0xE2⟩ = some (.decStep 0xE2#8) := by
  decide

end Sys2Proof.Tests
end

section
/-! SUPPORT. The constant tables by byte ranges (20_memory.md R21, R23) and the seven IN-PROGRESS states
(10_state.md R12). -/

namespace Sys2Proof.Machine

/-- The byte ranges of a class, both ends included (20_memory.md R21). -/
def ByteClass.ranges : ByteClass → List (Nat × Nat)
  | .ascii => [(0x00, 0x7F)]
  | .contLo => [(0x80, 0x8F)]
  | .contMid => [(0x90, 0x9F)]
  | .contHi => [(0xA0, 0xBF)]
  | .invOverlong => [(0xC0, 0xC1)]
  | .lead2 => [(0xC2, 0xDF)]
  | .lead3E0 => [(0xE0, 0xE0)]
  | .lead3 => [(0xE1, 0xEC), (0xEE, 0xEE), (0xEF, 0xEF)]
  | .lead3ED => [(0xED, 0xED)]
  | .lead4F0 => [(0xF0, 0xF0)]
  | .lead4 => [(0xF1, 0xF3)]
  | .lead4F4 => [(0xF4, 0xF4)]
  | .invTooLarge => [(0xF5, 0xFF)]

/-- A byte lies in a range of its own class. -/
theorem mem_ranges_classRom (b : Byte) :
    ∃ g ∈ (classRom b).ranges, g.1 ≤ b.toNat ∧ b.toNat ≤ g.2 := by
  have hb : b.toNat < 256 := b.isLt
  fun_cases classRom b <;> simp [ByteClass.ranges, *] <;> omega

/-- The ranges of two classes do not meet. -/
theorem ranges_disjoint {c c' : ByteClass} {n : Nat} (h : ∃ g ∈ c.ranges, g.1 ≤ n ∧ n ≤ g.2)
    (h' : ∃ g ∈ c'.ranges, g.1 ≤ n ∧ n ≤ g.2) : c = c' := by
  cases c <;> cases c' <;> simp [ByteClass.ranges] at h h' ⊢ <;> omega

theorem classRom_eq_iff (b : Byte) (c : ByteClass) :
    classRom b = c ↔ ∃ g ∈ c.ranges, g.1 ≤ b.toNat ∧ b.toNat ≤ g.2 :=
  ⟨fun h => h ▸ mem_ranges_classRom b, ranges_disjoint (mem_ranges_classRom b)⟩

/-- Each state but `REJECT` is entered from a START state by one class only (R23). -/
theorem startRow_eq_startRow_iff {c c' : ByteClass} (h : startRow c' ≠ .reject) :
    startRow c = startRow c' ↔ c = c' := by
  revert h
  cases c <;> cases c' <;> decide

/-- The classes an IN-PROGRESS state takes as its next byte (R23); nothing is claimed of a START state. -/
def DecState.nextClasses : DecState → List ByteClass
  | .cont2E0 => [.contHi]
  | .cont2ED => [.contLo, .contMid]
  | .cont3F0 => [.contMid, .contHi]
  | .cont3F4 => [.contLo]
  | _ => [.contLo, .contMid, .contHi]

/-- The first and the last byte of those classes (10_state.md R12). -/
def DecState.nextRange : DecState → Nat × Nat
  | .cont2E0 => (0xA0, 0xBF)
  | .cont2ED => (0x80, 0x9F)
  | .cont3F0 => (0x90, 0xBF)
  | .cont3F4 => (0x80, 0x8F)
  | _ => (0x80, 0xBF)

/-- The unrestricted state that owes `n` continuation bytes (R12). -/
def unrestricted : Nat → DecState
  | 0 => .accept
  | 1 => .cont1
  | 2 => .cont2
  | _ => .cont3

theorem classRom_mem_nextClasses_iff (s : DecState) (b : Byte) :
    classRom b ∈ s.nextClasses ↔ s.nextRange.1 ≤ b.toNat ∧ b.toNat ≤ s.nextRange.2 := by
  cases s <;> simp [DecState.nextClasses, DecState.nextRange, classRom_eq_iff, ByteClass.ranges] <;> omega

/-- The IN-PROGRESS rows of `TRANS_ROM` (R23): a class the state takes leads to the unrestricted state that owes
one byte fewer, any other class to `REJECT`. -/
theorem transRom_of_inProgress {s : DecState} (h : s.inProgress = true) (c : ByteClass) :
    transRom s c = if c ∈ s.nextClasses then unrestricted (s.owed - 1) else .reject := by
  revert h
  cases s <;> cases c <;> decide

/-- A lead class enters its state from either START state, by exactly the bytes of its ranges (R12). -/
theorem transRom_classRom_eq_startRow_iff {s : DecState} (hs : s.isStart = true) {c : ByteClass}
    (hc : startRow c ≠ .reject) (b : Byte) :
    transRom s (classRom b) = startRow c ↔ ∃ g ∈ c.ranges, g.1 ≤ b.toNat ∧ b.toNat ≤ g.2 := by
  rw [transRom_of_isStart hs, startRow_eq_startRow_iff hc, classRom_eq_iff]

/-- The next byte in an IN-PROGRESS state (R12). -/
theorem transRom_classRom_of_inProgress {s : DecState} (h : s.inProgress = true) (b : Byte) :
    transRom s (classRom b) = if s.nextRange.1 ≤ b.toNat ∧ b.toNat ≤ s.nextRange.2
      then unrestricted (s.owed - 1) else .reject := by
  simp only [transRom_of_inProgress h, classRom_mem_nextClasses_iff]

/-- A row of R12's table, for the IN-PROGRESS state that the lead class `c` enters. -/
theorem row_of_leadClass (c : ByteClass) (h : (startRow c).inProgress = true) (b : Byte) :
    (∀ s : DecState, s.isStart = true →
      (transRom s (classRom b) = startRow c ↔ ∃ g ∈ c.ranges, g.1 ≤ b.toNat ∧ b.toNat ≤ g.2)) ∧
    ((startRow c).nextRange.1 ≤ b.toNat ∧ b.toNat ≤ (startRow c).nextRange.2 →
      transRom (startRow c) (classRom b) = unrestricted ((startRow c).owed - 1)) ∧
    (¬((startRow c).nextRange.1 ≤ b.toNat ∧ b.toNat ≤ (startRow c).nextRange.2) →
      transRom (startRow c) (classRom b) = .reject) := by
  refine ⟨fun s hs => transRom_classRom_eq_startRow_iff hs ((inProgress_iff _).1 h).2 b, fun hb => ?_, fun hb => ?_⟩
  · rw [transRom_classRom_of_inProgress h, if_pos hb]
  · rw [transRom_classRom_of_inProgress h, if_neg hb]

/-- Settles O11: each row of R12's table is the row of the lead class that enters its state. -/
theorem inProgressStates : Obligations.InProgressStates := by
  unfold Obligations.InProgressStates
  simp only [List.forall_mem_cons]
  exact ⟨⟨rfl, row_of_leadClass .lead2 rfl⟩, ⟨rfl, row_of_leadClass .lead3 rfl⟩,
    ⟨rfl, row_of_leadClass .lead3E0 rfl⟩, ⟨rfl, row_of_leadClass .lead3ED rfl⟩,
    ⟨rfl, row_of_leadClass .lead4 rfl⟩, ⟨rfl, row_of_leadClass .lead4F0 rfl⟩,
    ⟨rfl, row_of_leadClass .lead4F4 rfl⟩, List.forall_mem_nil _⟩

end Sys2Proof.Machine
end

section
/-! SUPPORT. The cells of `TRANS_ROM`, the rejections they give (20_memory.md R23, R24), and the bit-level layout of
the tables (R28). -/

namespace Sys2Proof.Machine

/-- Settles O8, cell by cell: each of the 9 rows at each of the 13 classes. -/
theorem transRomCells : Obligations.TransRomCells := by
  unfold Obligations.TransRomCells
  intro s c
  cases s <;> cases c <;> rfl

/-! The rejections of R24, in the tables -/

/-- The bytes that occur in no UTF-8 text lead to `REJECT` from every state (20_memory.md R24). -/
theorem transRom_classRom_of_invalid (s : DecState) {b : Byte}
    (hb : b.toNat = 0xC0 ∨ b.toNat = 0xC1 ∨ 0xF5 ≤ b.toNat) : transRom s (classRom b) = .reject := by
  have hlt : b.toNat < 256 := b.isLt
  have hc : classRom b = .invOverlong ∨ classRom b = .invTooLarge := by
    simp [classRom_eq_iff, ByteClass.ranges]; omega
  rcases hc with hc | hc <;> rw [hc] <;> cases s <;> rfl

/-- A continuation byte starts no sequence (R24). -/
theorem transRom_classRom_of_bareContinuation {s : DecState} (hs : s.isStart = true) {b : Byte}
    (hb : 0x80 ≤ b.toNat ∧ b.toNat ≤ 0xBF) : transRom s (classRom b) = .reject := by
  have hc : classRom b = .contLo ∨ classRom b = .contMid ∨ classRom b = .contHi := by
    simp [classRom_eq_iff, ByteClass.ranges]; omega
  rcases hc with hc | hc | hc <;> rw [transRom_of_isStart hs, hc] <;> rfl

/-- After a lead byte of the class `l`, a byte outside the range of the state it enters leads to `REJECT`. -/
theorem transRom_transRom_of_outOfRange {s : DecState} (hs : s.isStart = true) {l : ByteClass}
    (hl : (startRow l).inProgress = true) {b c : Byte} (hb : ∃ g ∈ l.ranges, g.1 ≤ b.toNat ∧ b.toNat ≤ g.2)
    (hc : ¬((startRow l).nextRange.1 ≤ c.toNat ∧ c.toNat ≤ (startRow l).nextRange.2)) :
    transRom (transRom s (classRom b)) (classRom c) = .reject := by
  obtain ⟨henter, -, -⟩ := row_of_leadClass l hl b
  obtain ⟨-, -, hreject⟩ := row_of_leadClass l hl c
  rw [(henter s hs).2 hb, hreject hc]

/-- The second bytes that E0, ED, F0 and F4 shut out (R24): overlong forms, surrogates, scalars too large. -/
theorem transRom_transRom_of_restrictedLead {s : DecState} (hs : s.isStart = true) {b c : Byte}
    (h : (b.toNat = 0xE0 ∧ ¬(0xA0 ≤ c.toNat ∧ c.toNat ≤ 0xBF)) ∨
      (b.toNat = 0xED ∧ ¬(0x80 ≤ c.toNat ∧ c.toNat ≤ 0x9F)) ∨
      (b.toNat = 0xF0 ∧ ¬(0x90 ≤ c.toNat ∧ c.toNat ≤ 0xBF)) ∨
      (b.toNat = 0xF4 ∧ ¬(0x80 ≤ c.toNat ∧ c.toNat ≤ 0x8F))) :
    transRom (transRom s (classRom b)) (classRom c) = .reject := by
  rcases h with ⟨hb, hc⟩ | ⟨hb, hc⟩ | ⟨hb, hc⟩ | ⟨hb, hc⟩
  · exact transRom_transRom_of_outOfRange hs (l := .lead3E0) rfl (by simp [ByteClass.ranges, hb]) hc
  · exact transRom_transRom_of_outOfRange hs (l := .lead3ED) rfl (by simp [ByteClass.ranges, hb]) hc
  · exact transRom_transRom_of_outOfRange hs (l := .lead4F0) rfl (by simp [ByteClass.ranges, hb]) hc
  · exact transRom_transRom_of_outOfRange hs (l := .lead4F4) rfl (by simp [ByteClass.ranges, hb]) hc

/-- The IN-PROGRESS states are those that owe continuation bytes (10_state.md R12). -/
theorem inProgress_iff_owed_pos (s : DecState) : s.inProgress = true ↔ 0 < s.owed := by
  cases s <;> decide

/-! The rejections of R24, in the operations -/

/-- What both kinds of step share (40_decoder.md R55, R56): the table gives the state of the instance and of the
record, and `rej` says whether it is `REJECT`. -/
theorem exec_step_of_selected {op : Byte → Instr} (hop : op = .decStep ∨ op = .decVstep) {s : State} {d : DecInst}
    (h : s.selected = some d) (b : Byte) :
    ∃ (t : State) (d' : DecInst) (r : DecResult), exec (op b) s = .next t ∧ t.selected = some d' ∧
      t.result = some (.dec r) ∧ d'.state = transRom d.state (classRom b) ∧
      r.state = transRom d.state (classRom b) ∧ r.rej = (transRom d.state (classRom b)).isReject := by
  rcases hop with rfl | rfl <;>
    exact ⟨_, _, _, exec_of_selected rfl h, State.putSelected_selected h _, rfl, rfl, rfl, rfl⟩

/-- `DEC.FINISH` reports an error exactly when the instance owes continuation bytes (40_decoder.md R57). -/
theorem exec_decFinish_err_iff {s : State} {d : DecInst} (h : s.selected = some d) :
    ∃ (t : State) (r : DecResult), exec .decFinish s = .next t ∧ t.result = some (.dec r) ∧
      (r.err = true ↔ 0 < d.state.owed) :=
  ⟨_, _, exec_of_selected rfl h, rfl, inProgress_iff_owed_pos d.state⟩

/-- Settles O10: every clause is a rejection of the tables, read off the records of one or two steps. -/
theorem demandedRejections : Obligations.DemandedRejections := by
  unfold Obligations.DemandedRejections
  intro op hop s d b hd
  obtain ⟨t, d', r, ht, hd', hr, hstate, hafter, hrej⟩ := exec_step_of_selected hop hd b
  refine ⟨t, r, ht, hr, fun hb => ?_, fun hs hb => ?_, fun hs c _ hbc => ?_, ?_⟩
  · simp [hafter, hrej, transRom_classRom_of_invalid _ hb]
  · simp [hafter, hrej, transRom_classRom_of_bareContinuation hs hb]
  · obtain ⟨u, -, q, hu, -, hq, -, hafter', hrej'⟩ := exec_step_of_selected hop hd' c
    refine ⟨u, q, hu, hq, ?_⟩
    simp [hafter', hrej', hstate, transRom_transRom_of_restrictedLead hs hbc]
  · rw [hafter, ← hstate]
    exact exec_decFinish_err_iff hd'

/-! The numeric codes (30_encoding.md R44, R45) -/

@[simp] theorem ByteClass.ofCode_code (c : ByteClass) : ByteClass.ofCode c.code = some c := by cases c <;> rfl

@[simp] theorem DecState.ofCode_code (s : DecState) : DecState.ofCode s.code = some s := by cases s <;> rfl

theorem ByteClass.code_le (c : ByteClass) : c.code.toNat ≤ 12 := by cases c <;> decide

theorem DecState.code_le (s : DecState) : s.code.toNat ≤ 8 := by cases s <;> decide

theorem ByteClass.ofCode_eq_none_iff (k : ClassCode) : ByteClass.ofCode k = none ↔ 13 ≤ k.toNat := by
  revert k; decide

theorem DecState.ofCode_eq_none_iff (k : StateCode) : DecState.ofCode k = none ↔ 9 ≤ k.toNat := by
  revert k; decide

theorem DecState.code_eq_zero_iff (s : DecState) : s.code = 0#4 ↔ s = .accept := by cases s <;> decide

theorem DecState.code_eq_one_iff (s : DecState) : s.code = 1#4 ↔ s = .reject := by cases s <;> decide

/-! The bit-level tables (20_memory.md R28) -/

/-- The index of `TRANS_ROM` splits into the two codes it was put together from. -/
theorem extractLsb'_append_codes (s : StateCode) (c : ClassCode) :
    (s ++ c).extractLsb' 4 4 = s ∧ (s ++ c).extractLsb' 0 4 = c := by
  revert s c; decide

/-- An entry of the bit-level `TRANS_ROM` that is not padding. -/
theorem transRomBits_of_ofCode {s : StateCode} {c : ClassCode} {st : DecState} {cl : ByteClass}
    (hs : DecState.ofCode s = some st) (hc : ByteClass.ofCode c = some cl) :
    transRomBits (s ++ c) = (transRom st cl).code := by
  obtain ⟨hst, hcl⟩ := extractLsb'_append_codes s c
  simp [transRomBits, hst, hcl, hs, hc]

/-- The padding of the bit-level `TRANS_ROM`. -/
theorem transRomBits_of_padding {s : StateCode} {c : ClassCode}
    (h : DecState.ofCode s = none ∨ ByteClass.ofCode c = none) : transRomBits (s ++ c) = 1#4 := by
  obtain ⟨hst, hcl⟩ := extractLsb'_append_codes s c
  rcases h with h | h <;> simp [transRomBits, hst, hcl, h]

theorem transRomBits_append_le (s : StateCode) (c : ClassCode) : (transRomBits (s ++ c)).toNat ≤ 8 := by
  cases hs : DecState.ofCode s with
  | none => simp [transRomBits_of_padding (.inl hs)]
  | some st =>
    cases hc : ByteClass.ofCode c with
    | none => simp [transRomBits_of_padding (.inr hc)]
    | some cl => rw [transRomBits_of_ofCode hs hc]; exact DecState.code_le _

@[simp] theorem transRomBits_code (s : DecState) (c : ByteClass) :
    transRomBits (s.code ++ c.code) = (transRom s c).code :=
  transRomBits_of_ofCode s.ofCode_code c.ofCode_code

@[simp] theorem seedMaskBits_code (c : ByteClass) : seedMaskBits c.code = seedMask c := by
  simp [seedMaskBits]

/-- The bit-level step core is the step core, on codes. -/
theorem stepCoreBits_code (s : DecState) (a : Acc) (b : Byte) :
    stepCoreBits s.code a b = ((stepCore s a b).1.code, (stepCore s a b).2) := by
  simp [stepCoreBits, stepCore, classRomBits, seed, DecState.code_eq_zero_iff, DecState.code_eq_one_iff, isStart_iff]

/-- Settles O12: the tables through the codes they are indexed by, and the step core over them. -/
theorem bitLevelTablesRefineTheStepCore : Obligations.BitLevelTablesRefineTheStepCore := by
  unfold Obligations.BitLevelTablesRefineTheStepCore
  refine ⟨fun b => ⟨rfl, (classRom b).code_le⟩, fun s c => ⟨transRomBits_append_le s c, fun h => ?_⟩, fun c hc => ?_,
    stepCoreBits_code⟩
  · rw [← DecState.ofCode_eq_none_iff, ← ByteClass.ofCode_eq_none_iff] at h
    exact transRomBits_of_padding h
  · simp [seedMaskBits, (ByteClass.ofCode_eq_none_iff c).2 hc]

end Sys2Proof.Machine
end

section
/-! SUPPORT. The numeric codes both ways (30_encoding.md R44, R45), and the words the decoder takes and those it
names reserved (R40, R43). -/

namespace Sys2Proof.Machine

/-! The numeric codes (R44, R45) -/

theorem ByteClass.ofCode_eq_some_iff (c : ByteClass) (k : ClassCode) : ByteClass.ofCode k = some c ↔ c.code = k := by
  refine ⟨fun h => ?_, fun h => h ▸ c.ofCode_code⟩
  revert k
  cases c <;> decide

theorem DecState.ofCode_eq_some_iff (s : DecState) (k : StateCode) : DecState.ofCode k = some s ↔ s.code = k := by
  refine ⟨fun h => ?_, fun h => h ▸ s.ofCode_code⟩
  revert k
  cases s <;> decide

/-- Settles O13: the decoding of a code inverts the numbering, which is in the rule's order. -/
theorem classAndStateCodes : Obligations.ClassAndStateCodes := by
  unfold Obligations.ClassAndStateCodes
  exact ⟨ByteClass.ofCode_eq_some_iff, ByteClass.ofCode_eq_none_iff, by decide,
    DecState.ofCode_eq_some_iff, DecState.ofCode_eq_none_iff, by decide⟩

end Sys2Proof.Machine

/-! The words the decoder takes (R40, R43) -/

namespace Sys2Proof

/-- Which format's rule the decoder applies to a word, by its operation code (R40, R41). -/
theorem decode_format (w : ReqWord) :
    ((w.toNat / 2 ^ 32 = 0 ∨ w.toNat / 2 ^ 32 = 3) ∧ ∃ i, decode w = decodeN i w) ∨
    ((w.toNat / 2 ^ 32 = 1 ∨ w.toNat / 2 ^ 32 = 2) ∧ ∃ f, decode w = decodeB f w) ∨
    ((w.toNat / 2 ^ 32 = 4 ∨ w.toNat / 2 ^ 32 = 5) ∧ ∃ f, decode w = decodeS f w) ∨
    (6 ≤ w.toNat / 2 ^ 32 ∧ decode w = .reserved .opcode) := by
  rw [← opField_toNat]
  unfold decode
  split
  case h_1 h => exact .inl ⟨.inl h, _, rfl⟩
  case h_2 h => exact .inr (.inl ⟨.inl h, _, rfl⟩)
  case h_3 h => exact .inr (.inl ⟨.inr h, _, rfl⟩)
  case h_4 h => exact .inl ⟨.inr h, _, rfl⟩
  case h_5 h => exact .inr (.inr (.inl ⟨.inl h, _, rfl⟩))
  case h_6 h => exact .inr (.inr (.inl ⟨.inr h, _, rfl⟩))
  case h_7 h0 h1 h2 h3 h4 h5 =>
    simp only [imp_false] at h0 h1 h2 h3 h4 h5
    exact .inr (.inr (.inr ⟨by omega, rfl⟩))

theorem decodeN_of_arg_zero (i : Instr) {w : ReqWord} (h : w.toNat % 2 ^ 32 = 0) : decodeN i w = .op i :=
  if_pos ((argField_eq_zero_iff w).2 h)

theorem decodeN_of_arg_ne_zero (i : Instr) {w : ReqWord} (h : w.toNat % 2 ^ 32 ≠ 0) :
    decodeN i w = .reserved .operandOfFormatN :=
  if_neg (mt (argField_eq_zero_iff w).1 h)

theorem decodeB_of_arg_lt (f : Byte → Instr) {w : ReqWord} (h : w.toNat % 2 ^ 32 < 256) :
    decodeB f w = .op (f (byteField w)) :=
  if_pos ((zeroField_eq_zero_iff w).2 h)

theorem decodeB_of_not_arg_lt (f : Byte → Instr) {w : ReqWord} (h : ¬w.toNat % 2 ^ 32 < 256) :
    decodeB f w = .reserved .operandOfFormatB :=
  if_neg (mt (zeroField_eq_zero_iff w).1 h)

/-- The legal words, with the three formats set apart (R43). -/
theorem ReqWord.wf_iff (w : ReqWord) : ReqWord.wf w = true ↔
    w.toNat / 2 ^ 32 ≤ 5 ∧ (w.toNat / 2 ^ 32 = 0 ∨ w.toNat / 2 ^ 32 = 3 → w.toNat % 2 ^ 32 = 0) ∧
      (w.toNat / 2 ^ 32 = 1 ∨ w.toNat / 2 ^ 32 = 2 → w.toNat % 2 ^ 32 < 256) := by
  simp only [ReqWord.wf]
  split
  · simp; omega
  · split <;> simp <;> omega

/-- A legal word decodes to an operation. -/
theorem decode_of_wf {w : ReqWord} (h : ReqWord.wf w = true) : ∃ i, decode w = .op i := by
  obtain ⟨hop, hN, hB⟩ := (ReqWord.wf_iff w).1 h
  rcases decode_format w with ⟨hw, i, hd⟩ | ⟨hw, f, hd⟩ | ⟨-, f, hd⟩ | ⟨hw, -⟩
  · exact ⟨i, hd.trans (decodeN_of_arg_zero i (hN hw))⟩
  · exact ⟨_, hd.trans (decodeB_of_arg_lt f (hB hw))⟩
  · exact ⟨_, hd⟩
  · omega

namespace Machine

/-- A word that is not legal decodes to the name of the rule it breaks, and that name gives the refusal. -/
theorem decode_of_not_wf {w : ReqWord} (h : ReqWord.wf w = false) :
    ∃ why, decode w = .reserved why ∧
      refusalOf why = if 0x6 ≤ w.toNat / 2 ^ 32 then .reservedOpcode else .reservedOperand := by
  rw [← Bool.not_eq_true, ReqWord.wf_iff] at h
  rcases decode_format w with ⟨hw, i, hd⟩ | ⟨hw, f, hd⟩ | ⟨hw, -⟩ | ⟨hw, hd⟩
  · exact ⟨_, hd.trans (decodeN_of_arg_ne_zero i (by omega)), (if_neg (by omega)).symm⟩
  · exact ⟨_, hd.trans (decodeB_of_not_arg_lt f (by omega)), (if_neg (by omega)).symm⟩
  · omega
  · exact ⟨_, hd, (if_pos hw).symm⟩

/-- A step whose oldest request has a reserved word is refused by name. -/
theorem step_of_reserved {s : State} {q : Request} {rest : List Request} {why : Reserved}
    (hp : s.pending = q :: rest) (hd : decode q.word = .reserved why) : step s = .refused (refusalOf why) := by
  simp [step, State.fetch, hp, hd]

/-- Settles O15: a legal word decodes to an operation, any other to the reason for its refusal. -/
theorem reservedWordsRefused : Obligations.ReservedWordsRefused := by
  unfold Obligations.ReservedWordsRefused
  refine fun w => ⟨⟨decode_of_wf, fun ⟨i, hi⟩ => ?_⟩, ?_, fun h s k rest hp => ?_⟩
  · by_contra hw
    obtain ⟨why, hd, -⟩ := decode_of_not_wf (Bool.eq_false_iff.2 hw)
    cases hd.symm.trans hi
  · rw [← Bool.not_eq_true, ReqWord.wf_iff]
    omega
  · obtain ⟨why, hd, hr⟩ := decode_of_not_wf h
    rw [step_of_reserved hp hd, hr]

end Machine

end Sys2Proof
end

section
/-! SUPPORT. The packed records field by field, and what the operations put there (30_encoding.md R46, R47). -/

namespace Sys2Proof.Machine

/-! A field of a word, from the word as a number -/

theorem extractLsb'_eq_of_toNat {n start len : Nat} {x : BitVec n} {y : BitVec len}
    (h : x.toNat / 2 ^ start % 2 ^ len = y.toNat) : x.extractLsb' start len = y := by
  apply BitVec.eq_of_toNat_eq
  rw [BitVec.extractLsb'_toNat, Nat.shiftRight_eq_div_pow, h]

theorem getLsbD_eq_of_toNat {n i : Nat} {x : BitVec n} {b : Bool} (h : x.toNat / 2 ^ i % 2 = b.toNat) :
    x.getLsbD i = b := by
  rw [BitVec.getLsbD, Nat.testBit_eq_decide_div_mod_eq, h]
  cases b <;> rfl

/-! The decoder record (R46; 40_decoder.md R54 to R57) -/

theorem DecResult.pack_fields (r : DecResult) :
    (DecResult.pack r).extractLsb' 0 4 = r.state.code ∧
    (DecResult.pack r).getLsbD 4 = r.done ∧
    (DecResult.pack r).getLsbD 5 = r.rej ∧
    (DecResult.pack r).getLsbD 6 = r.err ∧
    (DecResult.pack r).getLsbD 7 = r.replay ∧
    (DecResult.pack r).getLsbD 8 = r.out.isSome ∧
    (DecResult.pack r).extractLsb' 9 21 = r.out.getD 0#21 := by
  have hdone := r.done.toNat_lt
  have hrej := r.rej.toNat_lt
  have herr := r.err.toNat_lt
  have hreplay := r.replay.toNat_lt
  have hsome := r.out.isSome.toNat_lt
  have hstate := r.state.code.isLt
  have hout := (r.out.getD 0#21).isLt
  refine ⟨extractLsb'_eq_of_toNat ?_, getLsbD_eq_of_toNat ?_, getLsbD_eq_of_toNat ?_, getLsbD_eq_of_toNat ?_,
    getLsbD_eq_of_toNat ?_, getLsbD_eq_of_toNat ?_, extractLsb'_eq_of_toNat ?_⟩ <;>
    rw [DecResult.pack_toNat] <;> omega

@[simp] theorem doneBit_iff (s' : DecState) : doneBit s' = true ↔ s' = .accept := isAccept_iff s'

@[simp] theorem rejBit_iff (s' : DecState) : rejBit s' = true ↔ s' = .reject := isReject_iff s'

@[simp] theorem errBit_iff (s s' : DecState) : errBit s s' = true ↔ s' = .reject ∧ s ≠ .reject := by
  simp [errBit]

@[simp] theorem replayBit_iff (s s' : DecState) : replayBit s s' = true ↔ s' = .reject ∧ 0 < s.owed := by
  simp [replayBit, inProgress_iff_owed_pos]

theorem stepOut_eq_some {s s' : DecState} {acc a : Acc} (h : stepOut s s' acc = some a) :
    (doneBit s' = true ∧ a = acc) ∨ (errBit s s' = true ∧ a = 0xFFFD#21) := by
  unfold stepOut at h
  split at h
  case isTrue hdone => exact .inl ⟨hdone, (Option.some.inj h).symm⟩
  case isFalse =>
    split at h
    case isTrue herr => exact .inr ⟨herr, (Option.some.inj h).symm⟩
    case isFalse => cases h

/-- The two kinds of record a decoder operation returns: of a step, with an output only from `DEC.STEP` (R55, R56),
and of `DEC.INIT` or `DEC.FINISH`, which leave `ACCEPT` (R54, R57). -/
theorem decEffect_record {i : Instr} {f : DecInst → DecInst × DecResult} (h : decEffect i = some f) (d : DecInst) :
    ((∃ b, i = .decStep b ∨ i = .decVstep b) ∧ ∃ out, (f d).2 = stepResult d.state (f d).1.state out ∧
      ∀ a, out = some a → (∃ b, i = .decStep b) ∧ stepOut d.state (f d).1.state (f d).1.acc = some a) ∨
    ((¬∃ b, i = .decStep b ∨ i = .decVstep b) ∧ (f d).1 = DecInst.start ∧
      ∃ err, (f d).2 = quietResult err ∧ (err = true ↔ i = .decFinish ∧ 0 < d.state.owed)) := by
  cases i <;> cases h
  case decInit => exact .inr ⟨by simp, rfl, _, rfl, by simp⟩
  case decStep b => exact .inl ⟨⟨b, .inl rfl⟩, _, rfl, fun a ha => ⟨⟨b, rfl⟩, ha⟩⟩
  case decVstep b => exact .inl ⟨⟨b, .inr rfl⟩, _, rfl, fun a ha => by cases ha⟩
  case decFinish => exact .inr ⟨by simp, rfl, _, rfl, by simp [inProgress_iff_owed_pos]⟩

/-- Settles O17: the fields as numbers, and the meaning of the bits by the kind of record the operation returns. -/
theorem decoderRecordLayout : Obligations.DecoderRecordLayout := by
  unfold Obligations.DecoderRecordLayout
  refine ⟨DecResult.pack_fields, fun i s t d d' r ht hr _ hd hd' => ?_⟩
  obtain ⟨f, d₀, hf, hd₀, rfl⟩ | ⟨e, -, rfl⟩ := exec_eq_next ht
  · cases hd₀.symm.trans hd
    cases (State.putSelected_selected hd (f d).1).symm.trans hd'
    cases hr
    rcases decEffect_record hf d with ⟨hstep, out, hrec, hout⟩ | ⟨hstep, hstart, err, hrec, herr⟩
    · have hfin : i ≠ .decFinish := by
        rintro rfl
        simp at hstep
      simp only [hrec, hstep, hfin, true_and, false_and, or_false]
      exact ⟨rfl, doneBit_iff _, rejBit_iff _, errBit_iff _ _, replayBit_iff _ _,
        fun a ha => (hout a ha).imp_right stepOut_eq_some⟩
    · simp only [hrec, hstart, hstep, false_and, false_or]
      simp [quietResult, DecInst.start, herr]
  · cases hr

/-! The encoder record (R47; 41_encoder.md R71, R72) -/

theorem EncResult.pack_fields (e : EncResult) :
    (EncResult.pack e).extractLsb' 0 3 = e.len ∧
    (EncResult.pack e).getLsbD 3 = e.err ∧
    (EncResult.pack e).extractLsb' 4 8 = e.b0 ∧
    (EncResult.pack e).extractLsb' 12 8 = e.b1 ∧
    (EncResult.pack e).extractLsb' 20 8 = e.b2 ∧
    (EncResult.pack e).extractLsb' 28 8 = e.b3 := by
  have hlen := e.len.isLt
  have herr := e.err.toNat_lt
  have hb0 := e.b0.isLt
  have hb1 := e.b1.isLt
  have hb2 := e.b2.isLt
  have hb3 := e.b3.isLt
  refine ⟨extractLsb'_eq_of_toNat ?_, getLsbD_eq_of_toNat ?_, extractLsb'_eq_of_toNat ?_, extractLsb'_eq_of_toNat ?_,
    extractLsb'_eq_of_toNat ?_, extractLsb'_eq_of_toNat ?_⟩ <;>
    rw [EncResult.pack_toNat] <;> omega

theorem encLen_le (v : Scalar) : (encLen v).toNat ≤ 4 := by
  fun_cases encLen v <;> simp

/-- The bytes of `ENC.ENCODE` at the length and above are 0. -/
theorem encodeResult_padding (v : Scalar) {k : Nat} (hk : k < 4) (h : (encLen v).toNat ≤ k) :
    [encB0 v, encB1 v, encB2 v, encB3 v][k]? = some 0#8 := by
  unfold encB0 encB1 encB2 encB3
  generalize (encLen v).toNat = n at h ⊢
  interval_cases k <;> interval_cases n <;> rfl

/-- Settles O18: the fields as numbers, and the records of the two operations, whose `err` is defined by the length. -/
theorem encoderRecordLayout : Obligations.EncoderRecordLayout := by
  unfold Obligations.EncoderRecordLayout
  refine ⟨EncResult.pack_fields, fun v s => ⟨_, _, encodeResult v, lengthResult v, rfl, rfl, rfl, rfl, ?_,
    fun k hk => encodeResult_padding v hk, rfl, rfl, rfl, rfl⟩⟩
  rintro x (rfl | rfl) <;> exact ⟨encLen_le v, decide_eq_true_iff⟩

end Sys2Proof.Machine
end

section
/-! SUPPORT. The four operations of a decoder instance in full (40_decoder.md R53 to R57): the words, the bits of a
step's record as decisions, and the accumulator of a step. -/

namespace Sys2Proof.Machine

/-- The word of a format B operation is its code, 24 zeros and its byte (30_encoding.md R40). -/
theorem encode_of_byteOperand {i : Instr} {b : Byte} (h : i.arg = b.setWidth 32) :
    encode i = i.opcode.code ++ 0#24 ++ b := by
  apply BitVec.eq_of_toNat_eq
  have hb : i.arg.toNat = b.toNat := by rw [h, BitVec.toNat_setWidth_of_le (by decide)]
  rw [encode_toNat, append_toNat, append_toNat, hb, BitVec.toNat_ofNat]
  omega

/-- The bits of a step's record, decided by the states before and after (40_decoder.md R55, R56). -/
theorem stepResult_eq (s s' : DecState) (out : Option Acc) :
    stepResult s s' out = {
      state := s'
      done := decide (s' = .accept)
      rej := decide (s' = .reject)
      err := decide (s' = .reject ∧ s ≠ .reject)
      replay := decide (s' = .reject ∧ s ≠ .accept ∧ s ≠ .reject)
      out := out } := by
  have hdone : doneBit s' = decide (s' = .accept) := Bool.eq_iff_iff.2 (by simp)
  have hrej : rejBit s' = decide (s' = .reject) := Bool.eq_iff_iff.2 (by simp)
  have herr : errBit s s' = decide (s' = .reject ∧ s ≠ .reject) := Bool.eq_iff_iff.2 (by simp)
  have hreplay : replayBit s s' = decide (s' = .reject ∧ s ≠ .accept ∧ s ≠ .reject) :=
    Bool.eq_iff_iff.2 (by simp [replayBit, inProgress_iff])
  rw [stepResult, hdone, hrej, herr, hreplay]

/-- Shifting a continuation byte in, as a number cut to 21 bits (R53, R61). -/
theorem shiftIn_eq_ofNat (a : Acc) (b : Byte) : shiftIn a b = BitVec.ofNat 21 (a.toNat * 64 + b.toNat % 64) :=
  BitVec.eq_of_toNat_eq (by rw [shiftIn_toNat, BitVec.toNat_ofNat])

/-- The accumulator after a step: cleared on `REJECT`, seeded in a START state, otherwise shifted into (R53). -/
theorem stepCore_acc (s : DecState) (a : Acc) (b : Byte) :
    (stepCore s a b).2 =
      if transRom s (classRom b) = .reject then 0#21
      else if s = .accept ∨ s = .reject then (b &&& (seedMask (classRom b)).setWidth 8).setWidth 21
      else BitVec.ofNat 21 (a.toNat * 64 + b.toNat % 64) := by
  simp only [stepCore, seed, isReject_iff, isStart_iff, shiftIn_eq_ofNat]

/-- Settles O1: the operation writes the start pair and returns the record of zeros. -/
theorem decInitStartsTheStream : Obligations.DecInitStartsTheStream := by
  unfold Obligations.DecInitStartsTheStream
  exact ⟨rfl, fun s d hd => ⟨quietResult false, exec_of_selected (f := initInst) rfl hd, rfl, by decide⟩⟩

/-- Settles O2: the step on the addressed instance, its accumulator and its record written out. -/
theorem decStepResult : Obligations.DecStepResult := by
  unfold Obligations.DecStepResult
  refine fun b => ⟨encode_of_byteOperand rfl, fun s d s' a' hd hs' ha' => ?_⟩
  have hacc : (stepCore d.state d.acc b).2 = a' := by rw [ha', hs', stepCore_acc]
  have hstep : stepInst b d = (⟨s', a'⟩, stepResult d.state s' (stepOut d.state s' a')) := by
    rw [← hacc, hs']; rfl
  rw [exec_of_selected rfl hd, hstep, stepResult_eq, stepOut_eq]
  rfl

/-- Settles O3: the same transition and record bits as a step, with the accumulator kept and no output. -/
theorem decVstepResult : Obligations.DecVstepResult := by
  unfold Obligations.DecVstepResult
  refine fun b => ⟨encode_of_byteOperand rfl, fun s d s' hd hs' => ?_⟩
  have hstep : vstepInst b d = (⟨s', d.acc⟩, stepResult d.state s' none) := by
    rw [hs']; rfl
  rw [exec_of_selected rfl hd, hstep, stepResult_eq]
  rfl

/-- Settles O4: the operation writes the start pair, and its error bit says that the state before was
IN-PROGRESS. -/
theorem decFinishResult : Obligations.DecFinishResult := by
  unfold Obligations.DecFinishResult
  refine ⟨rfl, fun s d hd => ?_⟩
  have herr : d.state.inProgress = decide (d.state ≠ .accept ∧ d.state ≠ .reject) :=
    Bool.eq_iff_iff.2 (by simp [inProgress_iff])
  rw [exec_of_selected rfl hd, finishInst, herr]
  rfl

end Sys2Proof.Machine
end

section
/-! SUPPORT. The length rule of the encoder as a number, and `ENC.LENGTH` in full (41_encoder.md R70, R72). -/

namespace Sys2Proof.Machine

/-- The number of bytes of a scalar, by the six ranges of R70; 0 for a value that is no scalar. -/
def encLenNat (v : Nat) : Nat :=
  if v ≤ 0x7F then 1 else if v ≤ 0x7FF then 2
  else if 0xD800 ≤ v ∧ v ≤ 0xDFFF then 0
  else if v ≤ 0xFFFF then 3 else if v ≤ 0x10FFFF then 4 else 0

/-- The 3-bit length holds the number of bytes uncut. -/
theorem encLen_toNat (v : Scalar) : (encLen v).toNat = encLenNat v.toNat := by
  rw [encLen_def, encLenNat]
  split_ifs <;> rfl

theorem encLen_eq_ofNat (v : Scalar) : encLen v = BitVec.ofNat 3 (encLenNat v.toNat) := by
  rw [← encLen_toNat, BitVec.ofNat_toNat, BitVec.setWidth_eq]

/-- The two encoder operations err exactly on the values whose number of bytes is 0. -/
theorem encLen_eq_zero_iff (v : Scalar) : encLen v = 0#3 ↔ encLenNat v.toNat = 0 := by
  rw [← encLen_toNat, BitVec.toNat_eq]
  rfl

/-- Settles O6: both records take `len` and `err` from the length, which is R70's number. -/
theorem encLengthResult : Obligations.EncLengthResult := by
  unfold Obligations.EncLengthResult
  intro v
  refine ⟨rfl, fun s n hn => ?_⟩
  obtain rfl : n = encLenNat v.toNat := hn
  have hlen := encLen_eq_ofNat v
  have herr : decide (encLen v = 0#3) = decide (encLenNat v.toNat = 0) := decide_eq_decide.2 (encLen_eq_zero_iff v)
  refine ⟨?_, encodeResult v, exec_of_encRecord rfl s, hlen, herr⟩
  rw [exec_of_encRecord (r := lengthResult v) rfl, lengthResult, herr, hlen]
  rfl

end Sys2Proof.Machine
end

section
/-! SUPPORT. When each error kind is reported: E1 by the two kinds of step, E2 by `DEC.FINISH`, E3 by the two encoder
operations (60_exceptions.md R93, R94, R97, R98). -/

namespace Sys2Proof.Machine

/-! Which operation reports which kind (R93) -/

theorem errorKind_eq_malformed_iff (i : Instr) (q : Result) : errorKind i q = some .malformed ↔
    (∃ b, i = .decStep b ∨ i = .decVstep b) ∧ ∃ r, q = .dec r ∧ r.rej = true := by
  cases i <;> cases q <;> simp [errorKind]

theorem errorKind_eq_truncated_iff (i : Instr) (q : Result) : errorKind i q = some .truncated ↔
    i = .decFinish ∧ ∃ r, q = .dec r ∧ r.err = true := by
  cases i <;> cases q <;> simp [errorKind]

theorem errorKind_eq_invalidScalar_iff (i : Instr) (q : Result) : errorKind i q = some .invalidScalar ↔
    (∃ v, i = .encEncode v ∨ i = .encLength v) ∧ ∃ e, q = .enc e ∧ e.err = true := by
  cases i <;> cases q <;> simp [errorKind]

/-! E1: a malformed sequence (R94) -/

theorem errorKind_step_iff {op : Byte → Instr} (hop : op = .decStep ∨ op = .decVstep) (b : Byte) (r : DecResult) :
    errorKind (op b) (.dec r) = some .malformed ↔ r.rej = true := by
  rcases hop with rfl | rfl <;> simp [errorKind_eq_malformed_iff]

/-- The classes that start no sequence (20_memory.md R23). -/
theorem startRow_eq_reject_iff (c : ByteClass) : startRow c = .reject ↔
    c = .contLo ∨ c = .contMid ∨ c = .contHi ∨ c = .invOverlong ∨ c = .invTooLarge := by
  cases c <;> decide

/-- The bytes that start no sequence: bare continuation bytes, and the bytes that occur in no UTF-8 text. -/
theorem startRow_classRom_eq_reject_iff (b : Byte) : startRow (classRom b) = .reject ↔
    (0x80 ≤ b.toNat ∧ b.toNat ≤ 0xBF) ∨ b.toNat = 0xC0 ∨ b.toNat = 0xC1 ∨ 0xF5 ≤ b.toNat := by
  have hb : b.toNat < 256 := b.isLt
  simp only [startRow_eq_reject_iff, classRom_eq_iff, ByteClass.ranges, List.mem_singleton, exists_eq_left]
  omega

theorem unrestricted_ne_reject (n : Nat) : unrestricted n ≠ .reject := by
  fun_cases unrestricted n <;> simp

/-- An IN-PROGRESS state rejects exactly the bytes outside the range it expects (10_state.md R12). -/
theorem transRom_classRom_eq_reject_iff {s : DecState} (h : s.inProgress = true) (b : Byte) :
    transRom s (classRom b) = .reject ↔ ¬(s.nextRange.1 ≤ b.toNat ∧ b.toNat ≤ s.nextRange.2) := by
  rw [transRom_classRom_of_inProgress h]
  split_ifs with hb <;> simp [hb, unrestricted_ne_reject]

/-- Settles O19: E1 is the bit `rej`, which the table gives; the bytes are those the row of the state rejects. -/
theorem malformedCause : Obligations.MalformedCause := by
  unfold Obligations.MalformedCause
  intro op hop s d b hd
  obtain ⟨t, -, r, ht, -, hr, -, -, hrej⟩ := exec_step_of_selected hop hd b
  have hkind : errorKind (op b) (.dec r) = some .malformed ↔ transRom d.state (classRom b) = .reject := by
    rw [errorKind_step_iff hop, hrej, isReject_iff]
  refine ⟨t, r, ht, hr, hkind, hkind.trans ?_⟩
  cases d.state
  case accept => exact startRow_classRom_eq_reject_iff b
  case reject => exact startRow_classRom_eq_reject_iff b
  all_goals exact transRom_classRom_eq_reject_iff rfl b

/-! E2: a truncated sequence (R97) -/

theorem inProgress_iff_mem (s : DecState) : s.inProgress = true ↔
    s ∈ [DecState.cont1, .cont2, .cont2E0, .cont2ED, .cont3, .cont3F0, .cont3F4] := by
  cases s <;> decide

/-- A step of either kind answers a next state only on an instance that exists; what it then does is
`exec_step_of_selected`'s. -/
theorem exec_step_eq_next {op : Byte → Instr} (hop : op = .decStep ∨ op = .decVstep) {s t : State} {b : Byte}
    (h : exec (op b) s = .next t) :
    ∃ (d d' : DecInst) (r : DecResult), s.selected = some d ∧ t.selected = some d' ∧ t.result = some (.dec r) ∧
      d'.state = transRom d.state (classRom b) ∧ r.state = transRom d.state (classRom b) ∧
      r.rej = (transRom d.state (classRom b)).isReject := by
  obtain ⟨-, d, -, hd, -⟩ | ⟨e, he, -⟩ := exec_eq_next h
  · obtain ⟨t', d', r, ht', hstep⟩ := exec_step_of_selected hop hd b
    cases h.symm.trans ht'
    exact ⟨d, d', r, hd, hstep⟩
  · rcases hop with rfl | rfl <;> cases he

/-- Settles O20: `DEC.FINISH` writes the start pair and errs exactly in an IN-PROGRESS state, which `REJECT`, the
state a rejecting step leaves, is not. -/
theorem truncatedCause : Obligations.TruncatedCause := by
  unfold Obligations.TruncatedCause
  refine ⟨fun s d hd => ?_, fun op hop s t b r ht hr hrej => ?_, fun i q h => ?_⟩
  · refine ⟨_, _, exec_of_selected (f := finishInst) rfl hd, rfl, ?_, State.putSelected_selected hd _⟩
    simp only [errorKind_eq_truncated_iff, true_and, Result.dec.injEq, exists_eq_left', finishInst_err,
      inProgress_iff_mem]
  · obtain ⟨_, d', r', -, hd', hr', hstate, -, hrej'⟩ := exec_step_eq_next hop ht
    cases hr.symm.trans hr'
    have hreject : d'.state = .reject := by rwa [hstate, ← isReject_iff, ← hrej']
    refine ⟨_, _, exec_of_selected (f := finishInst) rfl hd', rfl, ?_⟩
    rw [finishInst_err, hreject]
    rfl
  · exact ((errorKind_eq_truncated_iff i q).1 h).1

/-! E3: an invalid scalar (R98) -/

/-- The values without a length: the surrogates, and the values above the last scalar (41_encoder.md R70). -/
theorem encLenNat_eq_zero_iff (v : Nat) :
    encLenNat v = 0 ↔ (0xD800 ≤ v ∧ v ≤ 0xDFFF) ∨ 0x110000 ≤ v := by
  fun_cases encLenNat v <;> omega

/-- What both encoder operations share (R71, R72): the length of the record, and E3 exactly when it is 0. -/
theorem encRecord_of_encoderOp {op : Scalar → Instr} (hop : op = .encEncode ∨ op = .encLength) (v : Scalar) :
    ∃ e, encRecord (op v) = some e ∧ e.len = encLen v ∧
      (errorKind (op v) (.enc e) = some .invalidScalar ↔ encLen v = 0#3) := by
  rcases hop with rfl | rfl <;>
    exact ⟨_, rfl, rfl, by simp [errorKind_eq_invalidScalar_iff, encodeResult, lengthResult]⟩

/-- Settles O21: E3 says that the length is 0, and the length rule gives 0 to those values only. -/
theorem invalidScalarCause : Obligations.InvalidScalarCause := by
  unfold Obligations.InvalidScalarCause
  intro op hop v s
  obtain ⟨e, he, hlen, hkind⟩ := encRecord_of_encoderOp hop v
  refine ⟨e, exec_of_encRecord he s, ?_, ?_⟩
  · rw [hkind, encLen_eq_zero_iff, encLenNat_eq_zero_iff]
  · rw [hkind, hlen]

end Sys2Proof.Machine
end

section
/-! SUPPORT. Which operation a request word decodes to (30_encoding.md R40 to R42), and what a step does with the oldest
request (20_memory.md R33, 60_exceptions.md R92). -/

namespace Sys2Proof

/-! The decoder inverts the encoder (R40 to R42) -/

/-- A word is put together from its two fields in one way only. -/
theorem eq_append_iff (w : ReqWord) (c : BitVec 4) (a : Scalar) : w = c ++ a ↔ opField w = c ∧ argField w = a := by
  constructor
  · rintro rfl
    exact ⟨Laws.EncodedFields.opField_append c a, Laws.EncodedFields.argField_append c a⟩
  · rintro ⟨rfl, rfl⟩
    apply BitVec.eq_of_toNat_eq
    rw [Laws.EncodedFields.append_toNat, opField_toNat, argField_toNat]
    omega

theorem decodeN_eq_op_iff (i j : Instr) (w : ReqWord) : decodeN i w = .op j ↔ i = j ∧ argField w = 0#32 := by
  unfold decodeN
  split_ifs with h <;> simp [h]

theorem decodeS_eq_op_iff (f : Scalar → Instr) (j : Instr) (w : ReqWord) :
    decodeS f w = .op j ↔ f (argField w) = j :=
  Decoded.op.injEq _ _ ▸ Iff.rfl

/-- An operand field holds a byte exactly when it is the byte field, zero-extended. -/
theorem argField_eq_byte_iff (w : ReqWord) (b : Byte) :
    argField w = b.setWidth 32 ↔ zeroField w = 0#24 ∧ byteField w = b := by
  have hb := b.isLt
  rw [zeroField_eq_zero_iff, BitVec.toNat_eq, BitVec.toNat_eq, argField_toNat, byteField_toNat,
    BitVec.toNat_setWidth_of_le (by decide)]
  omega

theorem decodeB_eq_op_iff (f : Byte → Instr) (j : Instr) (w : ReqWord) :
    decodeB f w = .op j ↔ ∃ b, f b = j ∧ argField w = b.setWidth 32 := by
  unfold decodeB
  split_ifs with h <;> simp [argField_eq_byte_iff, h]

theorem Opcode.code_le (op : Opcode) : op.code.toNat ≤ 5 := by cases op <;> decide

/-- The decoder goes by the two fields alone. -/
theorem decode_eq_op_iff (w : ReqWord) (i : Instr) :
    decode w = .op i ↔ opField w = i.opcode.code ∧ argField w = i.arg := by
  rw [BitVec.toNat_eq]
  unfold decode
  split
  case h_7 h0 h1 h2 h3 h4 h5 =>
    have hcode := i.opcode.code_le
    simp only [imp_false] at h0 h1 h2 h3 h4 h5
    simp only [reduceCtorEq, false_iff]
    omega
  all_goals
    rename_i hop
    simp only [decodeN_eq_op_iff, decodeB_eq_op_iff, decodeS_eq_op_iff, hop]
    cases i <;> simp [Instr.opcode, Opcode.code, Instr.arg]

/-- Settles O14: both sides say what the two fields of the word are. -/
theorem decodeEncodeAgree : Obligations.DecodeEncodeAgree := by
  unfold Obligations.DecodeEncodeAgree
  intro w i
  rw [decode_eq_op_iff, encode, eq_append_iff]

@[simp] theorem decode_encode (i : Instr) : decode (encode i) = .op i := (decodeEncodeAgree _ i).2 rfl

/-- Settles O16: each word is the word of its operation. -/
theorem wordsOfTheOpcodeMap : Obligations.WordsOfTheOpcodeMap := by
  unfold Obligations.WordsOfTheOpcodeMap
  exact ⟨decode_encode .decInit, decode_encode (.decStep 0xFF#8), decode_encode (.decVstep 0xE2#8),
    decode_encode .decFinish, decode_encode (.encEncode 0xFFFFFFFF#32), decode_encode (.encLength 0x10FFFF#32)⟩

end Sys2Proof

end

section
/-! SUPPORT. An operation on the pair of the addressed instance, said once for all six, and what follows of it alone:
frames, independence of the other instances and of `ACC`, commutation, idempotence (20_memory.md R31, R34;
60_exceptions.md section 5; 70_reset_and_hazards.md). -/

namespace Sys2Proof.Machine

/-! Every operation on one pair -/

/-- What an operation does to the pair it is issued to, and the record it returns; the encoder's leave the pair
alone. -/
def onPair (i : Instr) (d : DecInst) : DecInst × Result :=
  match i with
  | .decInit => ((initInst d).1, .dec (initInst d).2)
  | .decStep b => ((stepInst b d).1, .dec (stepInst b d).2)
  | .decVstep b => ((vstepInst b d).1, .dec (vstepInst b d).2)
  | .decFinish => ((finishInst d).1, .dec (finishInst d).2)
  | .encEncode v => (d, .enc (encodeResult v))
  | .encLength v => (d, .enc (lengthResult v))

theorem State.putSelected_self {s : State} {d : DecInst} (h : s.selected = some d) : s.putSelected d = s := by
  obtain ⟨hlt, rfl⟩ := List.getElem?_eq_some_iff.mp h
  rw [State.putSelected, List.set_getElem_self]

/-- Any operation on an instance that exists: its pair is written, its record returned, all else is left. -/
theorem exec_of_pair {s : State} {d : DecInst} (h : s.selected = some d) (i : Instr) :
    exec i s = .next ((s.putSelected (onPair i d).1).returns (onPair i d).2) := by
  cases i with
  | decInit => exact exec_of_selected rfl h
  | decStep b => exact exec_of_selected rfl h
  | decVstep b => exact exec_of_selected rfl h
  | decFinish => exact exec_of_selected rfl h
  | encEncode v => rw [onPair, State.putSelected_self h]; rfl
  | encLength v => rw [onPair, State.putSelected_self h]; rfl

theorem agentOf_of_decEffect {i : Instr} {f : DecInst → DecInst × DecResult} (h : decEffect i = some f) (k : Nat) :
    agentOf i k = .decoder k := by
  cases i <;> cases h <;> rfl

theorem agentOf_of_encRecord {i : Instr} {r : EncResult} (h : encRecord i = some r) (k : Nat) :
    agentOf i k = .encoder := by
  cases i <;> cases h <;> rfl

/-- The operations of the encoder are those with a record of its own. -/
theorem encRecord_of_agentOf {i : Instr} {k : Nat} (h : agentOf i k = .encoder) : ∃ r, encRecord i = some r := by
  rcases exec_unit i with ⟨f, hf, -, -⟩ | ⟨r, hr, -, -⟩
  · rw [agentOf_of_decEffect hf] at h; cases h
  · exact ⟨r, hr⟩

/-- Every operation but a decoder's on a missing instance completes. -/
theorem exec_completes {i : Instr} {s : State} (h : agentOf i s.sel = .encoder ∨ s.selected ≠ none) :
    ∃ t, exec i s = .next t := by
  rcases h with h | h
  · obtain ⟨r, hr⟩ := encRecord_of_agentOf h
    exact ⟨_, exec_of_encRecord hr s⟩
  · obtain ⟨d, hd⟩ := Option.ne_none_iff_exists'.1 h
    exact ⟨_, exec_of_pair hd i⟩

/-- Settles O41: a decoder operation reads the addressed instance, which is not there. -/
theorem missingInstanceRefused : Obligations.MissingInstanceRefused := by
  unfold Obligations.MissingInstanceRefused
  refine fun i s => ⟨fun ⟨ha, hs⟩ => ?_, exec_completes⟩
  rcases exec_unit i with ⟨f, -, -, he⟩ | ⟨r, hr, -, -⟩
  · rw [he, decoderOp_of_none hs]
  · rw [agentOf_of_encRecord hr] at ha; cases ha

/-! What an operation leaves unchanged -/

/-- Settles O34: a decoder operation writes the addressed pair only, an encoder operation none. -/
theorem onlyOwnRegistersChange : Obligations.OnlyOwnRegistersChange := by
  unfold Obligations.OnlyOwnRegistersChange
  intro i s t ht
  obtain ⟨f, d, hf, -, rfl⟩ | ⟨r, -, rfl⟩ := exec_eq_next ht
  · refine ⟨fun k hk => ?_, by simp, rfl, rfl⟩
    rw [agentOf_of_decEffect hf] at hk
    exact State.putSelected_other (of_decide_eq_false hk) _
  · exact ⟨fun k _ => rfl, rfl, rfl, rfl⟩

/-- Settles O35: both machines perform the operation on the same pair, or on none. -/
theorem nothingLeaksBetweenInstances : Obligations.NothingLeaksBetweenInstances := by
  unfold Obligations.NothingLeaksBetweenInstances
  rintro i s t (henc | ⟨heq, hne⟩)
  · obtain ⟨r, hr⟩ := encRecord_of_agentOf henc
    refine ⟨_, _, exec_of_encRecord hr s, exec_of_encRecord hr t, rfl, fun hdec => ?_⟩
    rw [henc] at hdec; cases hdec
  · obtain ⟨d, hd⟩ := Option.ne_none_iff_exists'.1 hne
    have hd' : t.selected = some d := heq.symm.trans hd
    refine ⟨_, _, exec_of_pair hd i, exec_of_pair hd' i, rfl, fun _ => ?_⟩
    exact (State.putSelected_selected hd _).trans (State.putSelected_selected hd' _).symm

/-! The accumulator -/

/-- The states and the bits of any operation depend on the state before alone (10_state.md section 2). -/
theorem onPair_of_state_eq (i : Instr) {d e : DecInst} (h : d.state = e.state) :
    (onPair i d).1.state = (onPair i e).1.state ∧
    ∀ r q : DecResult, (onPair i d).2 = .dec r → (onPair i e).2 = .dec q →
      r.state = q.state ∧ r.done = q.done ∧ r.rej = q.rej ∧ r.err = q.err ∧ r.replay = q.replay := by
  refine ⟨?_, fun r q hr hq => ?_⟩
  · cases i <;> simp [onPair, initInst, finishInst, h]
  · cases i <;> cases hr <;> cases hq <;> simp [initInst, finishInst, h]

/-- In a START state no decoder operation but `DEC.VSTEP` reads `ACC`. -/
theorem onPair_of_isStart {i : Instr} {k : Nat} (hi : agentOf i k = .decoder k) (hv : ∀ b, i ≠ .decVstep b)
    {d e : DecInst} (h : d.state = e.state) (hs : d.state.isStart = true) : onPair i d = onPair i e := by
  have hs' : e.state.isStart = true := h ▸ hs
  cases i with
  | decInit => rfl
  | decStep b => simp only [onPair, stepInst, h, stepCore_of_isStart hs']
  | decVstep b => exact absurd rfl (hv b)
  | decFinish => simp only [onPair, finishInst, h]
  | encEncode v => cases hi
  | encLength v => cases hi

/-- Settles O36: the two machines perform the operation on pairs with the same state. -/
theorem accumulatorReadOnlyInProgress : Obligations.AccumulatorReadOnlyInProgress := by
  unfold Obligations.AccumulatorReadOnlyInProgress
  intro i s d a hd
  have hd' : (s.putSelected ⟨d.state, a⟩).selected = some ⟨d.state, a⟩ := State.putSelected_selected hd _
  obtain ⟨hstate, hbits⟩ := onPair_of_state_eq i (d := d) (e := ⟨d.state, a⟩) rfl
  refine ⟨_, _, exec_of_pair hd i, exec_of_pair hd' i, ?_, fun hs hi hv => ?_, fun r q hr hq => ?_⟩
  · simp [List.map_set, hstate]
  · simp [State.putSelected, State.returns, onPair_of_isStart hi hv (d := d) (e := ⟨d.state, a⟩) rfl hs]
  · exact hbits r q (Option.some.inj hr) (Option.some.inj hq)

/-! The order of operations -/

/-- An operation on the instance `k`. -/
theorem exec_at {s : State} {k : Nat} {d : DecInst} (h : s.insts[k]? = some d) (i : Instr) :
    exec i { s with sel := k } =
      .next { s with sel := k, insts := s.insts.set k (onPair i d).1, result := some (onPair i d).2 } :=
  exec_of_pair (s := { s with sel := k }) h i

/-- Settles O37: the two pairs are written apart, or an operation of the encoder, which writes none, meets the same
pairs before the other operation and after it. -/
theorem differentAgentsCommute : Obligations.DifferentAgentsCommute := by
  unfold Obligations.DifferentAgentsCommute
  intro i j s k m hk hm h
  have hd := List.getElem?_eq_getElem hk
  have he := List.getElem?_eq_getElem hm
  rcases h with hkm | hi | hj
  · have hd' : (s.insts.set m (onPair j s.insts[m]).1)[k]? = some s.insts[k] := by simp [Ne.symm hkm]
    have he' : (s.insts.set k (onPair i s.insts[k]).1)[m]? = some s.insts[m] := by simp [hkm]
    exact ⟨_, _, _, _, exec_at hd i, exec_at he' j, exec_at he j, exec_at hd' i, List.set_comm _ _ hkm, rfl, rfl⟩
  · obtain ⟨r, hr⟩ := encRecord_of_agentOf hi
    exact ⟨_, _, _, _, exec_of_encRecord hr _, exec_at he j, exec_at he j, exec_of_encRecord hr _, rfl, rfl, rfl⟩
  · obtain ⟨r, hr⟩ := encRecord_of_agentOf hj
    exact ⟨_, _, _, _, exec_at hd i, exec_of_encRecord hr _, exec_of_encRecord hr _, exec_at hd i, rfl, rfl, rfl⟩

/-- Settles O38: a record returned twice is returned once, the start pair written twice is written once; and E2 taken
in `ACCEPT` begins a sequence, which a second E2 breaks off. -/
theorem idempotentOperations : Obligations.IdempotentOperations := by
  unfold Obligations.IdempotentOperations
  refine ⟨fun i s t ha ht => ?_, fun i hi s d hd => ?_, fun op hop => ?_⟩
  · obtain ⟨r, hr⟩ := encRecord_of_agentOf ha
    rw [exec_of_encRecord hr] at ht ⊢
    cases ht; rfl
  · have hd' := State.putSelected_selected hd (onPair i d).1
    refine ⟨_, _, exec_of_pair hd i, exec_of_pair (s := (s.putSelected _).returns _) hd' i, ?_⟩
    rcases hi with rfl | rfl <;> exact List.set_set ..
  · rcases hop with rfl | rfl <;> exact ⟨0xE2#8, State.resetOf 1, _, _, rfl, rfl, by decide⟩

/-! The step -/

theorem step_of_op {s : State} {r : Request} {rest : List Request} {i : Instr} (hp : s.pending = r :: rest)
    (hi : decode r.word = .op i) : step s = exec i (s.accepts r.inst rest) := by
  simp [step, State.fetch, hp, hi]

theorem step_of_idle {s : State} (hp : s.pending = []) : step s = .next s := by
  simp [step, State.fetch, hp]

/-- Settles O39: `step` for a list of requests that is not empty, and for the empty list. -/
theorem stepPerformsTheOldestRequest : Obligations.StepPerformsTheOldestRequest := by
  unfold Obligations.StepPerformsTheOldestRequest
  exact ⟨fun s r rest i hp hi _ => step_of_op hp hi, fun s hp => step_of_idle hp⟩

/-- The driver has issued operations to the addressed instance, before all that is issued already. -/
def State.issuedFirst (is : List Instr) (s : State) : State :=
  { s with pending := is.map (fun i => { inst := s.sel, word := encode i }) ++ s.pending }

/-- A step on issued operations performs the first and leaves the others issued. -/
theorem step_issuedFirst {s : State} {d : DecInst} (h : s.selected = some d) (i : Instr) (is : List Instr) :
    step (s.issuedFirst (i :: is)) =
      .next (((s.putSelected (onPair i d).1).returns (onPair i d).2).issuedFirst is) := by
  have hp : (s.issuedFirst (i :: is)).pending = { inst := s.sel, word := encode i } :: (s.issuedFirst is).pending := rfl
  rw [step_of_op hp (decode_encode i)]
  exact exec_of_pair (s := (s.issuedFirst (i :: is)).accepts s.sel (s.issuedFirst is).pending) h i

/-- Settles O40: each step performs the request of its operation and leaves the others issued. -/
theorem issuedOperationsPerformedInOrder : Obligations.IssuedOperationsPerformedInOrder := by
  unfold Obligations.IssuedOperationsPerformedInOrder
  intro is s hs
  change ∃ t rs, _ ∧ _ ∧ State.run is.length (s.issuedFirst is) = _
  induction is generalizing s with
  | nil => exact ⟨s, [], rfl, rfl, rfl⟩
  | cons i is ih =>
    obtain ⟨d, hd⟩ := Option.ne_none_iff_exists'.1 hs
    have hd' := State.putSelected_selected hd (onPair i d).1
    obtain ⟨t, rs, ht, hlen, hrun⟩ :=
      ih ((s.putSelected (onPair i d).1).returns (onPair i d).2) (Option.ne_none_iff_exists'.2 ⟨_, hd'⟩)
    refine ⟨t, (onPair i d).2 :: rs, ?_, by simp [hlen], ?_⟩
    · simp [issueAll, exec_of_pair hd, ht]
    · rw [List.length_cons, State.run, step_issuedFirst hd, andThen_next, hrun]
      rfl

/-! Legal machines (60_exceptions.md R92) -/

theorem opcode_lt_four_of_decEffect {i : Instr} {f : DecInst → DecInst × DecResult} (h : decEffect i = some f) :
    i.opcode.code.toNat < 4 := by
  cases i <;> cases h <;> simp [Instr.opcode, Opcode.code]

/-- The operation code of a word is its operation's (30_encoding.md R40). -/
theorem encode_toNat_div (i : Instr) : (encode i).toNat / 2 ^ 32 = i.opcode.code.toNat := by
  have := i.arg.isLt
  rw [encode_toNat]
  omega

/-- A legal request is an operation that completes on the machine it is legal for. -/
theorem exec_of_legalRequest {s : State} {r : Request} (h : r.wf s.insts.length = true) (rest : List Request) :
    ∃ i t, decode r.word = .op i ∧ exec i (s.accepts r.inst rest) = .next t := by
  simp only [Request.wf, Bool.and_eq_true, Bool.or_eq_true, decide_eq_true_iff] at h
  obtain ⟨hword, hinst⟩ := h
  obtain ⟨i, hi⟩ := decode_of_wf hword
  rw [(decodeEncodeAgree _ _).1 hi, encode_toNat_div] at hinst
  refine ⟨i, ?_⟩
  have hready : agentOf i r.inst = .encoder ∨ s.insts[r.inst]? ≠ none := by
    rcases exec_unit i with ⟨f, hf, -, -⟩ | ⟨e, he, -, -⟩
    · have := opcode_lt_four_of_decEffect hf
      exact .inr (by simp; omega)
    · exact .inl (agentOf_of_encRecord he _)
  obtain ⟨t, ht⟩ := exec_completes (s := s.accepts r.inst rest) hready
  exact ⟨t, hi, ht⟩

/-- Settles O42: the oldest request is legal, so it is performed; the others stay, and so does the number of
instances. -/
theorem legalMachineNeverStops : Obligations.LegalMachineNeverStops := by
  unfold Obligations.LegalMachineNeverStops
  intro s hs
  cases hp : s.pending with
  | nil => exact ⟨s, step_of_idle hp, hs⟩
  | cons r rest =>
    simp only [State.legal, hp, List.all_cons, Bool.and_eq_true, decide_eq_true_iff] at hs
    obtain ⟨hlen, hr, hrest⟩ := hs
    obtain ⟨i, t, hi, ht⟩ := exec_of_legalRequest hr rest
    obtain ⟨-, hlen', -, hpending⟩ := onlyOwnRegistersChange _ _ _ ht
    rw [State.accepts_insts] at hlen'
    rw [State.accepts_pending] at hpending
    refine ⟨t, (step_of_op hp hi).trans ht, ?_⟩
    simp only [State.legal, hlen', hpending, Bool.and_eq_true, decide_eq_true_iff]
    exact ⟨hlen, hrest⟩

/-! Reset (70_reset_and_hazards.md section 1) -/

theorem resetOf_getElem? {n k : Nat} (h : k < n) : (State.resetOf n).insts[k]? = some DecInst.start := by
  simp [h]

/-- Settles O43: every instance of a machine after reset is at the start pair, which the two operations write. -/
theorem resetAndThreeWaysIntoIt : Obligations.ResetAndThreeWaysIntoIt := by
  unfold Obligations.ResetAndThreeWaysIntoIt
  have hreset : ∀ n k : Nat, k < n → (State.resetOf n).stateOut k = some 0#4 ∧ (State.resetOf n).accOut k = some 0#21 :=
    fun n k hk => by rw [State.stateOut, State.accOut, resetOf_getElem? hk]; exact ⟨rfl, rfl⟩
  refine ⟨fun n k hk => ⟨(hreset n k hk).1, (hreset n k hk).2, by simp, rfl⟩,
    fun s k hk => ⟨(hreset _ k hk).1, (hreset _ k hk).2, rfl, by simp [State.resetAll]⟩, fun i hi s d hd => ?_⟩
  refine ⟨_, exec_of_pair hd i, fun n k hk => ?_⟩
  rw [resetOf_getElem? hk]
  rcases hi with rfl | rfl <;> exact State.putSelected_selected hd _

/-- Settles O45: the start pair is a pair of the table, and nothing is issued. -/
theorem resetMeetsTheInvariants : Obligations.ResetMeetsTheInvariants := by
  unfold Obligations.ResetMeetsTheInvariants
  have htabled : ∀ n, (State.resetOf n).tabled = true := fun n => by
    simp [State.tabled, List.all_replicate, show DecInst.start.tabled = true from rfl]
  have hlegal : ∀ n, 1 ≤ n → (State.resetOf n).legal = true := fun n hn => by
    simpa [State.legal] using hn
  exact ⟨fun n => ⟨htabled n, hlegal n⟩, hlegal _ (by decide), htabled _⟩

end Sys2Proof.Machine
end

section
/-! SUPPORT. The well-formed sequences (30_encoding.md R48, R49, 40_decoder.md R62) read off the states of the decoder:
a first byte, then what the state it enters waits for. -/

namespace Sys2Proof.Machine

/-- The bytes that complete the sequence a state has begun, and no more; `REJECT` has begun none. -/
def DecState.completedBy : DecState → List Byte → Bool
  | s, [] => s.isAccept
  | s, b :: bs => s.inProgress && (transRom s (classRom b)).completedBy bs

@[simp] theorem isAccept_accept : DecState.accept.isAccept = true := rfl

@[simp] theorem completedBy_nil (s : DecState) : s.completedBy [] = s.isAccept := rfl

@[simp] theorem completedBy_cons_of_isStart {s : DecState} (h : s.isStart = true) (b : Byte) (bs : List Byte) :
    s.completedBy (b :: bs) = false := by
  simp [DecState.completedBy, DecState.inProgress, h]

@[simp] theorem completedBy_reject (bs : List Byte) : DecState.reject.completedBy bs = false := by
  cases bs with
  | nil => rfl
  | cons b bs => exact completedBy_cons_of_isStart rfl b bs

/-- An IN-PROGRESS state is completed by a byte of its range and what completes the state after it. -/
theorem completedBy_cons_of_inProgress {s : DecState} (h : s.inProgress = true) (b : Byte) (bs : List Byte) :
    s.completedBy (b :: bs) =
      (inRange s.nextRange.1 s.nextRange.2 b && (unrestricted (s.owed - 1)).completedBy bs) := by
  rw [DecState.completedBy, h, transRom_classRom_of_inProgress h, Bool.true_and, inRange]
  split_ifs with hb <;> simp [hb, completedBy_reject]

theorem owed_unrestricted {n : Nat} (h : n ≤ 3) : (unrestricted n).owed = n := by
  interval_cases n <;> rfl

theorem owed_le (s : DecState) : s.owed ≤ 3 := by cases s <;> decide

/-- A state is completed by as many bytes as it owes. -/
theorem length_of_completedBy {s : DecState} {bs : List Byte} (h : s.completedBy bs = true) : bs.length = s.owed := by
  induction bs generalizing s with
  | nil => rw [completedBy_nil, isAccept_iff] at h; rw [h]; rfl
  | cons b bs ih =>
    cases hs : s.inProgress with
    | false => simp [DecState.completedBy, hs] at h
    | true =>
      rw [completedBy_cons_of_inProgress hs, Bool.and_eq_true] at h
      have := (inProgress_iff_owed_pos s).1 hs
      have := owed_le s
      rw [List.length_cons, ih h.2, owed_unrestricted (by omega)]
      omega

section Rows

variable (b : Byte) (bs : List Byte)

@[simp] theorem completedBy_accept : DecState.accept.completedBy bs = bs.isEmpty := by
  cases bs <;> rfl
@[simp] theorem completedBy_cont1 :
    DecState.cont1.completedBy (b :: bs) = (isCont b && DecState.accept.completedBy bs) :=
  completedBy_cons_of_inProgress rfl b bs
@[simp] theorem completedBy_cont2 :
    DecState.cont2.completedBy (b :: bs) = (isCont b && DecState.cont1.completedBy bs) :=
  completedBy_cons_of_inProgress rfl b bs
@[simp] theorem completedBy_cont2E0 :
    DecState.cont2E0.completedBy (b :: bs) = (inRange 0xA0 0xBF b && DecState.cont1.completedBy bs) :=
  completedBy_cons_of_inProgress rfl b bs
@[simp] theorem completedBy_cont2ED :
    DecState.cont2ED.completedBy (b :: bs) = (inRange 0x80 0x9F b && DecState.cont1.completedBy bs) :=
  completedBy_cons_of_inProgress rfl b bs
@[simp] theorem completedBy_cont3 :
    DecState.cont3.completedBy (b :: bs) = (isCont b && DecState.cont2.completedBy bs) :=
  completedBy_cons_of_inProgress rfl b bs
@[simp] theorem completedBy_cont3F0 :
    DecState.cont3F0.completedBy (b :: bs) = (inRange 0x90 0xBF b && DecState.cont2.completedBy bs) :=
  completedBy_cons_of_inProgress rfl b bs
@[simp] theorem completedBy_cont3F4 :
    DecState.cont3F4.completedBy (b :: bs) = (inRange 0x80 0x8F b && DecState.cont2.completedBy bs) :=
  completedBy_cons_of_inProgress rfl b bs

end Rows

/-- A range of first bytes is the range of a class. -/
theorem inRange_eq_decide {lo hi : Nat} {c : ByteClass} (hc : c.ranges = [(lo, hi)]) (b : Byte) :
    inRange lo hi b = decide (classRom b = c) := by
  simp [inRange, classRom_eq_iff, hc]

/-- The two rows of R62 whose first byte is of the class `LEAD3` are alike. -/
theorem lead3_rows (b : Byte) (p : Bool) :
    (inRange 0xE1 0xEC b && p || inRange 0xEE 0xEF b && p) = (decide (classRom b = .lead3) && p) := by
  rw [← Bool.and_or_distrib_right]
  congr 1
  simp only [inRange, ← Bool.decide_or, classRom_eq_iff, ByteClass.ranges, List.mem_cons, List.not_mem_nil, or_false,
    exists_eq_or_imp, exists_eq_left]
  exact decide_eq_decide.2 (by omega)

/-- The rows of the table begin with a byte that begins a sequence, and go on with what completes the state it
enters. -/
theorem wfSeq_cons (b : Byte) (bs : List Byte) : wfSeq (b :: bs) = (startRow (classRom b)).completedBy bs := by
  rcases bs with _ | ⟨x, _ | ⟨y, _ | ⟨z, _ | ⟨u, us⟩⟩⟩⟩
  · rw [wfSeq, inRange_eq_decide (c := .ascii) rfl]
    cases classRom b <;> rfl
  · rw [wfSeq, inRange_eq_decide (c := .lead2) rfl]
    cases classRom b <;> simp [startRow]
  · have hrow : wfSeq [b, x, y] = (decide (classRom b = .lead3E0) && (inRange 0xA0 0xBF x && isCont y) ||
        decide (classRom b = .lead3ED) && (inRange 0x80 0x9F x && isCont y) ||
        decide (classRom b = .lead3) && (isCont x && isCont y)) := by
      rw [← lead3_rows, ← inRange_eq_decide (c := .lead3E0) rfl, ← inRange_eq_decide (c := .lead3ED) rfl]
      simp only [wfSeq, Bool.and_assoc]
      ac_rfl
    rw [hrow]
    cases classRom b <;> simp [startRow]
  · rw [wfSeq, inRange_eq_decide (c := .lead4F0) rfl, inRange_eq_decide (c := .lead4) rfl,
      inRange_eq_decide (c := .lead4F4) rfl]
    cases classRom b <;> simp [startRow, Bool.and_assoc]
  · cases classRom b <;> simp [wfSeq, startRow]

/-! The length a first byte announces (30_encoding.md R49) -/

/-- The class of a first byte announces the byte itself and those the state it enters owes. -/
theorem seqLen_eq (c : ByteClass) :
    c.seqLen = if startRow c = .reject then none else some ((startRow c).owed + 1) := by
  cases c <;> rfl

/-- Every state but `REJECT` can be completed. -/
theorem exists_completedBy {s : DecState} (h : s ≠ .reject) : ∃ bs, s.completedBy bs = true := by
  cases s with
  | accept => exact ⟨[], rfl⟩
  | reject => exact absurd rfl h
  | cont1 => exact ⟨[0x80#8], rfl⟩
  | cont2 => exact ⟨[0x80#8, 0x80#8], rfl⟩
  | cont2E0 => exact ⟨[0xA0#8, 0x80#8], rfl⟩
  | cont2ED => exact ⟨[0x80#8, 0x80#8], rfl⟩
  | cont3 => exact ⟨[0x80#8, 0x80#8, 0x80#8], rfl⟩
  | cont3F0 => exact ⟨[0x90#8, 0x80#8, 0x80#8], rfl⟩
  | cont3F4 => exact ⟨[0x80#8, 0x80#8, 0x80#8], rfl⟩

/-- A well-formed sequence has the length its first byte announces. -/
theorem seqLen_of_wfSeq {b : Byte} {bs : List Byte} (h : wfSeq (b :: bs) = true) :
    (classRom b).seqLen = some (bs.length + 1) := by
  rw [wfSeq_cons] at h
  have hne : startRow (classRom b) ≠ .reject := fun hr => by simp [hr] at h
  rw [seqLen_eq, if_neg hne, length_of_completedBy h]

/-- A byte that announces a length begins a well-formed sequence. -/
theorem exists_wfSeq_of_seqLen {b : Byte} (h : (classRom b).seqLen ≠ none) : ∃ bs, wfSeq (b :: bs) = true := by
  simp only [wfSeq_cons]
  refine exists_completedBy fun hr => h ?_
  rw [seqLen_eq, if_pos hr]

/-! The payload (30_encoding.md R48) -/

/-- The byte formats of R48, with the payload in the range of the length (40_decoder.md R62). -/
def hasFormat (bs : List Byte) : Prop :=
  match bs with
  | [a] => a.toNat / 128 = 0b0
  | [a, b] => a.toNat / 32 = 0b110 ∧ b.toNat / 64 = 0b10 ∧ 0x80 ≤ payload bs ∧ payload bs ≤ 0x7FF
  | [a, b, c] => a.toNat / 16 = 0b1110 ∧ b.toNat / 64 = 0b10 ∧ c.toNat / 64 = 0b10 ∧
    0x800 ≤ payload bs ∧ payload bs ≤ 0xFFFF ∧ ¬(0xD800 ≤ payload bs ∧ payload bs ≤ 0xDFFF)
  | [a, b, c, d] => a.toNat / 8 = 0b11110 ∧ b.toNat / 64 = 0b10 ∧ c.toNat / 64 = 0b10 ∧ d.toNat / 64 = 0b10 ∧
    0x10000 ≤ payload bs ∧ payload bs ≤ 0x10FFFF
  | _ => False

/-- A number with the payload bits of continuation bytes put behind it. -/
def contValue (n : Nat) (bs : List Byte) : Nat := bs.foldl (fun n b => n * 64 + b.toNat % 64) n

@[simp] theorem contValue_nil (n : Nat) : contValue n [] = n := rfl

@[simp] theorem contValue_cons (n : Nat) (b : Byte) (bs : List Byte) :
    contValue n (b :: bs) = contValue (n * 64 + b.toNat % 64) bs := rfl

/-- The seed of a sequence as a number: the mask keeps the low bits of the first byte (20_memory.md R25). -/
theorem seed_toNat (b : Byte) (c : ByteClass) : (seed b c).toNat = b.toNat % ((seedMask c).toNat + 1) := by
  obtain ⟨k, hk, hmask⟩ : ∃ k ≤ 7, (seedMask c).toNat = 2 ^ k - 1 := by
    cases c
    case ascii => exact ⟨7, by decide⟩
    case lead2 => exact ⟨5, by decide⟩
    case lead3 | lead3E0 | lead3ED => exact ⟨4, by decide⟩
    case lead4 | lead4F0 | lead4F4 => exact ⟨3, by decide⟩
    all_goals exact ⟨0, by decide⟩
  rw [seed, BitVec.toNat_setWidth_of_le (by decide), BitVec.toNat_and, BitVec.toNat_setWidth_of_le (by decide), hmask,
    Nat.and_two_pow_sub_one_eq_mod, Nat.sub_add_cancel Nat.one_le_two_pow]

/-- The payload bits of a first byte that announces the length `n`. -/
theorem seedMask_of_seqLen {c : ByteClass} {n : Nat} (h : c.seqLen = some n) :
    (seedMask c).toNat + 1 = if n = 1 then 128 else if n = 2 then 32 else if n = 3 then 16 else 8 := by
  cases c <;> cases h <;> rfl

/-- The payload of a well-formed sequence is the seed of its first byte with the other bytes behind it. -/
theorem payload_cons {b : Byte} {bs : List Byte} (h : wfSeq (b :: bs) = true) :
    payload (b :: bs) = contValue (seed b (classRom b)).toNat bs := by
  rw [seed_toNat, seedMask_of_seqLen (seqLen_of_wfSeq h)]
  rcases bs with _ | ⟨x, _ | ⟨y, _ | ⟨z, _ | ⟨u, us⟩⟩⟩⟩
  · rfl
  · rfl
  · simp [payload]; omega
  · simp [payload]; omega
  · cases h

/-- The rows of the table are the byte formats of R48 with the payload in the range of the length; no surrogates. -/
theorem wfSeq_iff_format (bs : List Byte) : wfSeq bs = true ↔ hasFormat bs := by
  rcases bs with _ | ⟨a, _ | ⟨b, _ | ⟨c, _ | ⟨d, _ | ⟨e, es⟩⟩⟩⟩⟩ <;>
    simp only [wfSeq, hasFormat, payload, inRange, isCont, Bool.and_eq_true, Bool.or_eq_true, decide_eq_true_iff,
      Bool.false_eq_true]
  · omega
  · omega
  · omega
  · omega

/-- Settles O29: the length by the state the first byte enters, the rows by their formats. -/
theorem firstByteAnnouncesTheLength : Obligations.FirstByteAnnouncesTheLength := by
  unfold Obligations.FirstByteAnnouncesTheLength
  refine ⟨fun b bs => seqLen_of_wfSeq, fun b => exists_wfSeq_of_seqLen, fun bs => ?_⟩
  rw [wfSeq_iff_format]
  rcases bs with _ | ⟨a, _ | ⟨b, _ | ⟨c, _ | ⟨d, _ | ⟨e, es⟩⟩⟩⟩⟩ <;> simp [hasFormat]

theorem isScalar_iff (n : Nat) : isScalar n = true ↔ n ≤ 0x10FFFF ∧ ¬(0xD800 ≤ n ∧ n ≤ 0xDFFF) := by
  rw [isScalar, Bool.and_eq_true, ← Bool.decide_and, ← decide_not, decide_eq_true_iff, decide_eq_true_iff]
  rfl

/-- The payload of a well-formed sequence is a scalar value. -/
theorem isScalar_payload {bs : List Byte} (h : wfSeq bs = true) : isScalar (payload bs) = true := by
  rw [wfSeq_iff_format] at h
  rw [isScalar_iff]
  rcases bs with _ | ⟨a, _ | ⟨b, _ | ⟨c, _ | ⟨d, _ | ⟨e, es⟩⟩⟩⟩⟩ <;> simp only [hasFormat] at h
  · simp only [payload]; omega
  · omega
  · omega
  · omega

end Sys2Proof.Machine
end

section
/-! SUPPORT. `ENC.ENCODE` in full, its outputs against the table of well-formed sequences (41_encoder.md R70 to R76), and
the encode streams (42_reference_driver.md R83). -/

namespace Sys2Proof.Machine

/-! The length of each range (R70) -/

section Lengths

variable {v : Scalar}

theorem encLen_eq_one (h : v.toNat ≤ 0x7F) : encLen v = 1#3 := by
  rw [encLen_def, if_pos h]

theorem encLen_eq_two (h : 0x80 ≤ v.toNat ∧ v.toNat ≤ 0x7FF) : encLen v = 2#3 := by
  rw [encLen_def, if_neg (by omega), if_pos h.2]

theorem encLen_eq_three (h : 0x800 ≤ v.toNat ∧ v.toNat ≤ 0xFFFF ∧ ¬(0xD800 ≤ v.toNat ∧ v.toNat ≤ 0xDFFF)) :
    encLen v = 3#3 := by
  rw [encLen_def, if_neg (by omega), if_neg (by omega), if_neg h.2.2, if_pos h.2.1]

theorem encLen_eq_four (h : 0x10000 ≤ v.toNat ∧ v.toNat ≤ 0x10FFFF) : encLen v = 4#3 := by
  rw [encLen_def, if_neg (by omega), if_neg (by omega), if_neg (by omega), if_neg (by omega), if_pos h.2]

theorem encLen_eq_zero (h : (0xD800 ≤ v.toNat ∧ v.toNat ≤ 0xDFFF) ∨ 0x110000 ≤ v.toNat) : encLen v = 0#3 :=
  (encLen_eq_zero_iff v).2 ((encLenNat_eq_zero_iff _).2 h)

end Lengths

/-! The record of each range, its bytes as numbers (R71, R74) -/

section Records

variable {v : Scalar}

theorem encodeResult_of_encLen_eq_zero (h : encLen v = 0#3) : encodeResult v = ⟨0#3, true, 0#8, 0#8, 0#8, 0#8⟩ := by
  simp [encodeResult, encB0, encB1, encB2, encB3, h]

theorem encodeResult_one (h : v.toNat ≤ 0x7F) :
    ∃ a : Byte, encodeResult v = ⟨1#3, false, a, 0#8, 0#8, 0#8⟩ ∧ a.toNat = v.toNat := by
  refine ⟨v.extractLsb' 0 8, ?_, ?_⟩
  · simp [encodeResult, encB0, encB1, encB2, encB3, encLen_eq_one h]
  · rw [BitVec.extractLsb'_toNat, Nat.shiftRight_zero]
    omega

theorem encodeResult_two (h : 0x80 ≤ v.toNat ∧ v.toNat ≤ 0x7FF) :
    ∃ a b : Byte, encodeResult v = ⟨2#3, false, a, b, 0#8, 0#8⟩ ∧
      a.toNat = 0xC0 + v.toNat / 64 ∧ b.toNat = 0x80 + v.toNat % 64 := by
  refine ⟨_, contByte v 0, ?_, (lead2_toNat v).trans (by omega), (contByte_toNat v 0).trans (by omega)⟩
  simp [encodeResult, encB0, encB1, encB2, encB3, encLen_eq_two h]

theorem encodeResult_three (h : 0x800 ≤ v.toNat ∧ v.toNat ≤ 0xFFFF ∧ ¬(0xD800 ≤ v.toNat ∧ v.toNat ≤ 0xDFFF)) :
    ∃ a b c : Byte, encodeResult v = ⟨3#3, false, a, b, c, 0#8⟩ ∧
      a.toNat = 0xE0 + v.toNat / 4096 ∧ b.toNat = 0x80 + v.toNat / 64 % 64 ∧ c.toNat = 0x80 + v.toNat % 64 := by
  refine ⟨_, contByte v 6, contByte v 0, ?_, (lead3_toNat v).trans (by omega), contByte_toNat v 6,
    (contByte_toNat v 0).trans (by omega)⟩
  simp [encodeResult, encB0, encB1, encB2, encB3, encLen_eq_three h]

theorem encodeResult_four (h : 0x10000 ≤ v.toNat ∧ v.toNat ≤ 0x10FFFF) :
    ∃ a b c d : Byte, encodeResult v = ⟨4#3, false, a, b, c, d⟩ ∧ a.toNat = 0xF0 + v.toNat / 262144 ∧
      b.toNat = 0x80 + v.toNat / 4096 % 64 ∧ c.toNat = 0x80 + v.toNat / 64 % 64 ∧ d.toNat = 0x80 + v.toNat % 64 := by
  refine ⟨_, contByte v 12, contByte v 6, contByte v 0, ?_, (lead4_toNat v).trans (by omega), contByte_toNat v 12,
    contByte_toNat v 6, (contByte_toNat v 0).trans (by omega)⟩
  simp [encodeResult, encB0, encB1, encB2, encB3, encLen_eq_four h]

end Records

/-- Settles O5: the record of each range. -/
theorem encEncodeResult : Obligations.EncEncodeResult := by
  unfold Obligations.EncEncodeResult
  intro v
  refine ⟨rfl, fun s => ⟨encodeResult v, exec_of_encRecord rfl s, fun h => ?_, fun h => ?_, fun h => ?_, fun h => ?_,
    fun h => ?_, fun h => ?_⟩⟩
  · obtain ⟨a, he, ha⟩ := encodeResult_one h
    rw [he]
    exact ⟨rfl, rfl, ha, rfl, rfl, rfl⟩
  · obtain ⟨a, b, he, ha, hb⟩ := encodeResult_two h
    rw [he]
    exact ⟨rfl, rfl, ha, hb, rfl, rfl⟩
  · exact encodeResult_of_encLen_eq_zero (encLen_eq_zero (.inl h))
  · obtain ⟨a, b, c, he, ha, hb, hc⟩ := encodeResult_three h
    rw [he]
    exact ⟨rfl, rfl, ha, hb, hc, rfl⟩
  · obtain ⟨a, b, c, d, he, ha, hb, hc, hd⟩ := encodeResult_four h
    rw [he]
    exact ⟨rfl, rfl, ha, hb, hc, hd⟩
  · exact encodeResult_of_encLen_eq_zero (encLen_eq_zero (.inr h))

/-- Settles O32: the record by evaluation. -/
theorem replacementEncoding : Obligations.ReplacementEncoding := by
  unfold Obligations.ReplacementEncoding
  exact fun s => exec_of_encRecord (r := encodeResult 0xFFFD#32) rfl s

/-! The bytes as a sequence (R74, R75) -/

/-- `ENC.ENCODE` fails exactly on the values that are no scalar values. -/
theorem encodeResult_err (v : Scalar) : (encodeResult v).err = !isScalar v.toNat := by
  rw [Bool.eq_iff_iff, Bool.not_eq_true', ← Bool.not_eq_true, isScalar_iff, encodeResult, decide_eq_true_iff,
    encLen_eq_zero_iff, encLenNat_eq_zero_iff]
  omega

/-- The encoding of a scalar value is a well-formed sequence with that payload. -/
theorem encodeResult_bytes_wf {v : Scalar} (h : isScalar v.toNat = true) :
    wfSeq (encodeResult v).bytes = true ∧ payload (encodeResult v).bytes = v.toNat := by
  rw [isScalar_iff] at h
  rw [wfSeq_iff_format]
  by_cases h1 : v.toNat ≤ 0x7F
  · obtain ⟨a, he, ha⟩ := encodeResult_one h1
    simp [he, EncResult.bytes, hasFormat, payload, ha]
    omega
  by_cases h2 : v.toNat ≤ 0x7FF
  · obtain ⟨a, b, he, ha, hb⟩ := encodeResult_two ⟨by omega, h2⟩
    simp [he, EncResult.bytes, hasFormat, payload, ha, hb]
    omega
  by_cases h3 : v.toNat ≤ 0xFFFF
  · obtain ⟨a, b, c, he, ha, hb, hc⟩ := encodeResult_three ⟨by omega, h3, h.2⟩
    simp [he, EncResult.bytes, hasFormat, payload, ha, hb, hc]
    omega
  · obtain ⟨a, b, c, d, he, ha, hb, hc, hd⟩ := encodeResult_four ⟨by omega, h.1⟩
    simp [he, EncResult.bytes, hasFormat, payload, ha, hb, hc, hd]
    omega

/-- A well-formed sequence is the encoding of its payload. -/
theorem encodeResult_bytes_of_wf {v : Scalar} {bs : List Byte} (h : wfSeq bs = true) (hv : payload bs = v.toNat) :
    (encodeResult v).bytes = bs := by
  rw [wfSeq_iff_format] at h
  rcases bs with _ | ⟨a, _ | ⟨b, _ | ⟨c, _ | ⟨d, _ | ⟨e, es⟩⟩⟩⟩⟩ <;> simp only [hasFormat, payload] at h hv
  · obtain ⟨a', he, ha⟩ := encodeResult_one (v := v) (by omega)
    simp [he, EncResult.bytes, BitVec.toNat_eq, ha]
    omega
  · obtain ⟨a', b', he, ha, hb⟩ := encodeResult_two (v := v) (by omega)
    simp [he, EncResult.bytes, BitVec.toNat_eq, ha, hb]
    omega
  · obtain ⟨a', b', c', he, ha, hb, hc⟩ := encodeResult_three (v := v) (by omega)
    simp [he, EncResult.bytes, BitVec.toNat_eq, ha, hb, hc]
    omega
  · obtain ⟨a', b', c', d', he, ha, hb, hc, hd⟩ := encodeResult_four (v := v) (by omega)
    simp [he, EncResult.bytes, BitVec.toNat_eq, ha, hb, hc, hd]
    omega

/-- Settles O31: a scalar value is encoded by the well-formed sequence with its payload, which is no other's. -/
theorem encoderOutputsAreTheTable : Obligations.EncoderOutputsAreTheTable := by
  unfold Obligations.EncoderOutputsAreTheTable
  refine fun bs v s => ⟨_, _, exec_of_encRecord (r := encodeResult v) rfl s, rfl, ?_, fun ⟨hwf, hv⟩ => ?_⟩
  · rintro ⟨herr, rfl⟩
    rw [encodeResult_err, Bool.not_eq_false'] at herr
    exact encodeResult_bytes_wf herr
  · refine ⟨?_, encodeResult_bytes_of_wf hwf hv⟩
    rw [encodeResult_err, ← hv, isScalar_payload hwf]
    rfl

/-! The encode streams (42_reference_driver.md R83) -/

/-- The scalar value an encode driver emits for a value: U+FFFD for one that is no scalar value. -/
def substituteOf (v : Scalar) : Scalar := if isScalar v.toNat then v else replacementScalar

/-- What an encode driver holds after a list of values, if `rec` gives the records and `emit` the bytes emitted. -/
def EncDriver.after (rec : Scalar → EncResult) (emit : EncResult → List Byte) (vs : List Scalar) (g : EncDriver) :
    EncDriver :=
  { bytes := g.bytes ++ vs.flatMap (fun v => emit (rec (substituteOf v)))
    nBytes := g.nBytes + (vs.map (fun v => (rec (substituteOf v)).len.toNat)).sum
    nOk := g.nOk + (vs.filter (fun v => isScalar v.toNat)).length
    nErr := g.nErr + (vs.filter (fun v => !isScalar v.toNat)).length }

section EncodeLoop

variable {op : Scalar → Instr} {rec : Scalar → EncResult} (hop : ∀ v, encRecord (op v) = some (rec v))
  (herr : ∀ v, (rec v).err = !isScalar v.toNat)

include hop herr

/-- The body of the loop emits the record of the value or of its substitute, and changes nothing but the record. -/
theorem substitute_eq (v : Scalar) (s : State) :
    ∃ t, substitute op v s = .next (t, rec (substituteOf v), !isScalar v.toNat) ∧
      t.insts = s.insts ∧ t.sel = s.sel := by
  cases hv : isScalar v.toNat with
  | true =>
    refine ⟨s.returns (.enc (rec v)), ?_, rfl, rfl⟩
    simp [substitute, exec_of_encRecord (hop v), herr, hv, substituteOf]
  | false =>
    refine ⟨(s.returns (.enc (rec v))).returns (.enc (rec replacementScalar)), ?_, rfl, rfl⟩
    simp [substitute, exec_of_encRecord (hop _), herr, hv, substituteOf]

/-- The loop of an encode driver, said once. -/
theorem encodeLoop_eq (emit : EncResult → List Byte) (vs : List Scalar) (s : State) (g : EncDriver) :
    ∃ t, encodeLoop op emit vs s g = .next (t, g.after rec emit vs) ∧ t.insts = s.insts ∧ t.sel = s.sel := by
  induction vs generalizing s g with
  | nil => exact ⟨s, by simp [encodeLoop, EncDriver.after], rfl, rfl⟩
  | cons v vs ih =>
    obtain ⟨t, ht, hti, hts⟩ := substitute_eq hop herr v s
    obtain ⟨u, hu, hui, hus⟩ := ih t _
    refine ⟨u, ?_, hui.trans hti, hus.trans hts⟩
    rw [encodeLoop, ht, andThen_next, hu]
    cases hv : isScalar v.toNat <;> simp [EncDriver.after, hv, Nat.add_assoc, Nat.add_comm 1]

end EncodeLoop

theorem lengthResult_err (v : Scalar) : (lengthResult v).err = !isScalar v.toNat := encodeResult_err v

/-- `encode_stream`, said once. -/
theorem encodeStream_eq (vs : List Scalar) (s : State) :
    ∃ t, encodeStream vs s = .next (t, EncDriver.start.after encodeResult EncResult.bytes vs) ∧
      t.insts = s.insts ∧ t.sel = s.sel :=
  encodeLoop_eq (fun _ => rfl) encodeResult_err EncResult.bytes vs s EncDriver.start

/-- `length_stream`, said once. -/
theorem lengthStream_eq (vs : List Scalar) (s : State) :
    ∃ t, lengthStream vs s = .next (t, EncDriver.start.after lengthResult (fun _ => []) vs) ∧
      t.insts = s.insts ∧ t.sel = s.sel :=
  encodeLoop_eq (fun _ => rfl) lengthResult_err (fun _ => []) vs s EncDriver.start

/-- The encoder returns as many bytes as its length says. -/
theorem encodeResult_bytes_length (v : Scalar) : (encodeResult v).bytes.length = (encLen v).toNat := by
  have := encLen_le v
  simpa [EncResult.bytes, encodeResult] using this

/-- Settles O52: both loops, with the bytes of U+FFFD. -/
theorem encodeStreamSubstitutes : Obligations.EncodeStreamSubstitutes := by
  unfold Obligations.EncodeStreamSubstitutes
  intro vs s
  obtain ⟨t, ht, hti, -⟩ := encodeStream_eq vs s
  obtain ⟨u, hu, hui, -⟩ := lengthStream_eq vs s
  have hbytes : ∀ v : Scalar, (encodeResult (substituteOf v)).bytes =
      if isScalar v.toNat then (encodeResult v).bytes else [0xEF#8, 0xBF#8, 0xBD#8] := fun v => by
    rw [substituteOf]
    split_ifs <;> rfl
  refine ⟨t, u, _, _, ht, hu, ?_, ?_, ?_, hti, hui, ?_, rfl, rfl⟩
  · simp [EncDriver.after, EncDriver.start, hbytes]
  · simp [EncDriver.after, EncDriver.start]
  · simp [EncDriver.after, EncDriver.start]
  · simp [EncDriver.after, EncDriver.start, List.length_flatMap, encodeResult_bytes_length, lengthResult]

end Sys2Proof.Machine
end

section
/-! SUPPORT. One step of a decoder instance: the laws of its record, rejection, replay and recovery (40_decoder.md
section 3, R58; 60_exceptions.md R93, R96, R100), and the shift in reach (10_state.md R15). -/

namespace Sys2Proof.Machine

/-! The constant tables -/

/-- Settles O7: the ranges of each class. -/
theorem classRomRanges : Obligations.ClassRomRanges := by
  unfold Obligations.ClassRomRanges
  intro b
  have hb : b.toNat < 256 := b.isLt
  simp [classRom_eq_iff, ByteClass.ranges]
  omega

/-- Settles O9, class by class. -/
theorem seedMaskCells : Obligations.SeedMaskCells := by
  unfold Obligations.SeedMaskCells
  refine ⟨rfl, rfl, ?_, ?_, ?_⟩
  · rintro c (rfl | rfl | rfl) <;> rfl
  · rintro c (rfl | rfl | rfl) <;> rfl
  · rintro c (rfl | rfl | rfl | rfl | rfl) <;> rfl

/-! The laws of a record (R55 to R57, R100) -/

/-- The bits of a step's record, whatever it hands out. -/
theorem stepResult_laws (s s' : DecState) (out : Option Acc) :
    ¬((stepResult s s' out).done = true ∧ (stepResult s s' out).rej = true) ∧
    ((stepResult s s' out).replay = true → (stepResult s s' out).err = true) ∧
    ((stepResult s s' out).err = true → (stepResult s s' out).rej = true) := by
  rw [stepResult_eq]
  simp only [decide_eq_true_iff]
  refine ⟨?_, fun ⟨hrej, _, hne⟩ => ⟨hrej, hne⟩, fun ⟨hrej, _⟩ => hrej⟩
  rintro ⟨rfl, h⟩
  cases h

/-- A `DEC.STEP` hands something out exactly on `done` and on `err`. -/
theorem stepOut_isSome_iff (s s' : DecState) (a : Acc) :
    (stepOut s s' a).isSome = true ↔ doneBit s' = true ∨ errBit s s' = true := by
  unfold stepOut
  split_ifs <;> simp_all

/-- The record a decoder operation returns is that of the pair it is issued to. -/
theorem exec_eq_next_dec {i : Instr} {s t : State} {r : DecResult} (h : exec i s = .next t)
    (hr : t.result = some (.dec r)) :
    ∃ f d, decEffect i = some f ∧ s.selected = some d ∧ t = (s.putSelected (f d).1).returns (.dec (f d).2) ∧
      r = (f d).2 := by
  obtain ⟨f, d, hf, hd, rfl⟩ | ⟨e, -, rfl⟩ := exec_eq_next h
  · cases hr
    exact ⟨f, d, hf, hd, rfl, rfl⟩
  · cases hr

/-- Settles O23: the two kinds of step, and the two operations whose record can only hold `err`. -/
theorem recordBitLaws : Obligations.RecordBitLaws := by
  unfold Obligations.RecordBitLaws
  intro i s t r ht hr
  obtain ⟨f, d, hf, -, -, rfl⟩ := exec_eq_next_dec ht hr
  cases i <;> cases hf
  case decInit => simp [initInst, quietResult]
  case decStep b =>
    obtain ⟨hexcl, hreplay, herr⟩ := stepResult_laws d.state (stepInst b d).1.state (stepInst b d).2.out
    exact ⟨hexcl, hreplay, fun _ => herr, fun _ => stepOut_isSome_iff _ _ _, fun hb => absurd rfl (hb b)⟩
  case decVstep b =>
    obtain ⟨hexcl, hreplay, herr⟩ := stepResult_laws d.state (vstepInst b d).1.state none
    exact ⟨hexcl, hreplay, fun _ => herr, by simp, fun _ => rfl⟩
  case decFinish => simp [finishInst, quietResult]

/-! Rejection (R93) -/

/-- A rejecting `DEC.STEP`. -/
theorem stepInst_of_reject {b : Byte} {d : DecInst} (h : transRom d.state (classRom b) = .reject) :
    (stepInst b d).1 = ⟨.reject, 0#21⟩ ∧
    (stepInst b d).2.out = if (stepInst b d).2.err then some 0xFFFD#21 else none := by
  refine ⟨?_, ?_⟩
  · simp [stepInst, stepCore, h]
  · simp [stepOut_eq, h, replacement]

/-- Settles O22: a rejection is known by `rej`, a truncated sequence by `DEC.FINISH`; the encoder changes no
instance. -/
theorem errorKindEffects : Obligations.ErrorKindEffects := by
  unfold Obligations.ErrorKindEffects
  refine fun i s t q ht hq => ⟨fun hk => ?_, fun hk => ?_, fun hk => ?_⟩
  · obtain ⟨⟨b, hb⟩, r, rfl, hrej⟩ := (errorKind_eq_malformed_iff i q).1 hk
    obtain ⟨f, d, hf, hd, rfl, rfl⟩ := exec_eq_next_dec ht hq
    refine ⟨d, (f d).1, (f d).2, hd, State.putSelected_selected hd _, rfl, ?_⟩
    rcases hb with rfl | rfl <;> cases hf
    · rw [stepInst_rej, isReject_iff] at hrej
      obtain ⟨hpair, hout⟩ := stepInst_of_reject hrej
      exact ⟨hrej, by simp [hrej], by simp [hrej], .inl ⟨b, rfl, by rw [hpair], hout⟩⟩
    · rw [vstepInst_rej, isReject_iff] at hrej
      exact ⟨hrej, by simp [hrej], by simp [hrej], .inr ⟨b, rfl, rfl, rfl⟩⟩
  · obtain ⟨rfl, r, rfl, -⟩ := (errorKind_eq_truncated_iff i q).1 hk
    obtain ⟨f, d, hf, hd, rfl, -⟩ := exec_eq_next_dec ht hq
    cases hf
    exact ⟨rfl, State.putSelected_selected hd _⟩
  · obtain ⟨hi, e, rfl, -⟩ := (errorKind_eq_invalidScalar_iff i q).1 hk
    refine ⟨hi, ?_⟩
    obtain ⟨f, d, -, -, rfl⟩ | ⟨e, -, rfl⟩ := exec_eq_next ht
    · cases hq
    · rfl

/-! Replay and recovery (R58, R96) -/

/-- A step in `REJECT` leaves the pair a step in `ACCEPT` leaves, whatever the accumulators held; it never asks for a
replay and never errs, and the records are equal if it does not reject. -/
theorem stepInst_reject_accept (b : Byte) {d e : DecInst} (hd : d.state = .reject) (he : e.state = .accept) :
    (stepInst b d).1 = (stepInst b e).1 ∧ (stepInst b d).2.done = (stepInst b e).2.done ∧
    (stepInst b d).2.rej = (stepInst b e).2.rej ∧ (stepInst b d).2.replay = false ∧ (stepInst b e).2.replay = false ∧
    (stepInst b d).2.err = false ∧ ((stepInst b d).2.rej = false → (stepInst b d).2 = (stepInst b e).2) := by
  have hcore : stepCore d.state d.acc b = stepCore e.state e.acc b := by
    rw [hd, he, stepCore_of_isStart rfl, stepCore_of_isStart rfl]
  refine ⟨?_, ?_, ?_, ?_, ?_, ?_, fun hrej => ?_⟩
  · simp only [stepInst, hcore]
  · simp [hd, he]
  · simp [hd, he]
  · simp [hd, DecState.inProgress, DecState.isStart]
  · simp [he, DecState.inProgress, DecState.isStart]
  · simp [hd, DecState.isReject]
  · have hne : transRom e.state (classRom b) ≠ .reject := by simpa [hd, he] using hrej
    simp [stepInst, hcore, stepResult_eq, stepOut_eq, hne]

/-- Settles O25: the two pairs of `stepInst_reject_accept`, in the addressed instance. -/
theorem rejectRecoversByItself : Obligations.RejectRecoversByItself := by
  unfold Obligations.RejectRecoversByItself
  intro s d a b hd hstate
  obtain ⟨hpair, hbits⟩ := stepInst_reject_accept b (e := ⟨.accept, a⟩) hstate rfl
  have hd' : (s.putSelected ⟨.accept, a⟩).selected = some ⟨.accept, a⟩ := State.putSelected_selected hd _
  refine ⟨_, _, _, _, exec_of_selected rfl hd, rfl, exec_of_selected rfl hd', rfl, ?_, hbits⟩
  simp [hpair]

/-- A byte that a START state has just rejected is rejected again, and nothing changes or is handed out. -/
theorem stepInst_reject_again {b : Byte} {d : DecInst} (hs : d.state.isStart = true)
    (h : transRom d.state (classRom b) = .reject) :
    stepInst b (stepInst b d).1 = ((stepInst b d).1, stepResult .reject .reject none) := by
  have hrow : startRow (classRom b) = .reject := (transRom_of_isStart hs _).symm.trans h
  rw [(stepInst_of_reject h).1]
  simp [stepInst, stepCore, hrow, stepOut_eq]

/-- Settles O24: after a rejection the pair is (`REJECT`, 0); there the byte is taken as in `ACCEPT`, and rejected again
if a START state has just rejected it. -/
theorem replayOnceIsEnough : Obligations.ReplayOnceIsEnough := by
  unfold Obligations.ReplayOnceIsEnough
  intro s d b hd
  have ht := State.putSelected_selected hd (stepInst b d).1
  refine ⟨_, _, exec_of_selected (f := stepInst b) rfl hd, rfl, fun hreplay => ?_, fun hrej hreplay => ?_⟩
  · rw [stepInst_replay, Bool.and_eq_true, isReject_iff] at hreplay
    have hafter : (stepInst b d).1.state = .reject := hreplay.1
    obtain ⟨hpair, hdone, hrej, hrep, -, herr, -⟩ :=
      stepInst_reject_accept b (e := ⟨.accept, d.acc⟩) hafter rfl
    have hd' : (s.putSelected ⟨.accept, d.acc⟩).selected = some ⟨.accept, d.acc⟩ := State.putSelected_selected hd _
    refine ⟨_, _, _, _, exec_of_selected (f := stepInst b) rfl ht, rfl, hrep, herr,
      exec_of_selected (f := stepInst b) rfl hd', rfl, ?_, hdone, hrej⟩
    simp [hpair]
  · rw [stepInst_rej, isReject_iff] at hrej
    have hstart : d.state.isStart = true := by
      simpa [hrej, DecState.isReject, DecState.inProgress] using hreplay
    have hagain := stepInst_reject_again hstart hrej
    refine ⟨_, _, exec_of_selected (f := stepInst b) rfl ht, rfl, ?_, ?_⟩
    · simp [hagain]
    · rw [hagain]
      exact ⟨rfl, rfl, rfl, rfl⟩

/-! In reach (10_state.md R15) -/

/-- The largest accumulator of a sequence in progress. -/
theorem acc_le_of_tabled {d : DecInst} (h : d.tabled = true) (hs : d.state.inProgress = true) :
    d.acc.toNat ≤ 0x43FF := by
  revert hs
  unfold DecInst.tabled at h
  cases hd : d.state <;> simp [hd, DecState.inProgress, DecState.isStart] at h ⊢ <;> omega

/-- In reach the shift is multiplication by 64 and addition, with nothing cut off. -/
theorem stepInst_acc_of_tabled {d : DecInst} (h : d.tabled = true) (hs : d.state.inProgress = true) {b : Byte}
    (hr : transRom d.state (classRom b) ≠ .reject) : (stepInst b d).1.acc.toNat = d.acc.toNat * 64 + b.toNat % 64 := by
  have hacc := acc_le_of_tabled h hs
  rw [stepInst_acc, stepCore_acc_inProgress hs hr, shiftIn_toNat, Nat.mod_eq_of_lt (by omega)]

/-- Settles O47: the step on the addressed pair. -/
theorem shiftLosesNothingInReach : Obligations.ShiftLosesNothingInReach := by
  unfold Obligations.ShiftLosesNothingInReach
  exact fun s d b hd htab hs => ⟨_, _, exec_of_selected (f := stepInst b) rfl hd, State.putSelected_selected hd _,
    stepInst_acc_of_tabled htab hs⟩

/-! The conditional pseudo-operations (30_encoding.md R51) -/

/-- `DEC.FEED` and `DEC.VFEED` issue the step, and once more exactly after `replay` = 1. -/
theorem feed_eq_issueAll {op : Byte → Instr} {f : Byte → DecInst → DecInst × DecResult}
    (hop : ∀ b, decEffect (op b) = some (f b)) (b : Byte) {s : State} {d : DecInst} (h : s.selected = some d) :
    feed op b s = issueAll (if (f b d).2.replay then [op b, op b] else [op b]) s := by
  have hagain := exec_of_selected (hop b) (s := (s.putSelected (f b d).1).returns (.dec (f b d).2))
    (State.putSelected_selected h _)
  cases hr : (f b d).2.replay <;> simp [feed, issueAll, exec_of_selected (hop b) h, hr, hagain]

theorem encSubst_eq_issueAll (v : Scalar) (s : State) :
    encSubst v s =
      issueAll (if isScalar v.toNat then [.encEncode v] else [.encEncode v, .encEncode replacementScalar]) s := by
  cases hv : isScalar v.toNat <;>
    simp [encSubst, issueAll, exec_of_encRecord (i := .encEncode _) rfl, encodeResult_err, hv]

/-- Settles O53: the two kinds of feed, and `ENC.SUBST`. -/
theorem conditionalPseudoOperations : Obligations.ConditionalPseudoOperations := by
  unfold Obligations.ConditionalPseudoOperations
  exact ⟨fun s d b hd => ⟨_, _, exec_of_selected (f := stepInst b) rfl hd, rfl, feed_eq_issueAll (fun _ => rfl) b hd⟩,
    fun s d b hd => ⟨_, _, exec_of_selected (f := vstepInst b) rfl hd, rfl, feed_eq_issueAll (fun _ => rfl) b hd⟩,
    fun s v => encSubst_eq_issueAll v s⟩

end Sys2Proof.Machine
end

section
/-! SUPPORT. A byte string stepped through an instance: what is accepted and with which value (40_decoder.md R60 to
R63), the round trip (41_encoder.md R75), and reject runs (60_exceptions.md R95). -/

namespace Sys2Proof.Machine

/-! What the two kinds of step share (R55, R56) -/

/-- The state after and the four bits of a step of either kind. -/
structure IsStep (f : Byte → DecInst → DecInst × DecResult) : Prop where
  state : ∀ b d, (f b d).1.state = transRom d.state (classRom b)
  after : ∀ b d, (f b d).2.state = transRom d.state (classRom b)
  done : ∀ b d, (f b d).2.done = (transRom d.state (classRom b)).isAccept
  rej : ∀ b d, (f b d).2.rej = (transRom d.state (classRom b)).isReject
  err : ∀ b d, (f b d).2.err = ((transRom d.state (classRom b)).isReject && !d.state.isReject)
  replay : ∀ b d, (f b d).2.replay = ((transRom d.state (classRom b)).isReject && d.state.inProgress)

theorem isStep_stepInst : IsStep stepInst :=
  ⟨fun _ _ => rfl, fun _ _ => rfl, fun _ _ => rfl, fun _ _ => rfl, fun _ _ => rfl, fun _ _ => rfl⟩

theorem isStep_vstepInst : IsStep vstepInst :=
  ⟨fun _ _ => rfl, fun _ _ => rfl, fun _ _ => rfl, fun _ _ => rfl, fun _ _ => rfl, fun _ _ => rfl⟩

theorem exists_isStep {op : Byte → Instr} (hop : op = .decStep ∨ op = .decVstep) :
    ∃ f, IsStep f ∧ ∀ b, decEffect (op b) = some (f b) := by
  rcases hop with rfl | rfl
  · exact ⟨stepInst, isStep_stepInst, fun _ => rfl⟩
  · exact ⟨vstepInst, isStep_vstepInst, fun _ => rfl⟩

theorem decEffect_decStep (b : Byte) : decEffect (.decStep b) = some (stepInst b) := rfl

theorem decEffect_decVstep (b : Byte) : decEffect (.decVstep b) = some (vstepInst b) := rfl

/-! Decoding one sequence -/

/-- The record of a step within a sequence: nothing but the state. -/
def DecResult.isSilent (r : DecResult) : Prop :=
  r.done = false ∧ r.rej = false ∧ r.err = false ∧ r.replay = false ∧ r.out = none

/-- The record of the last step of a sequence with the value `a`. -/
def acceptedRecord (a : Acc) : DecResult :=
  { state := .accept, done := true, rej := false, err := false, replay := false, out := some a }

/-- Stepped through the pair `d`, the bytes `bs` are one sequence with the value `n`. -/
def Decodes (d : DecInst) (bs : List Byte) (n : Nat) : Prop :=
  ∃ rs, instRun stepInst bs d = (⟨.accept, BitVec.ofNat 21 n⟩, rs ++ [acceptedRecord (BitVec.ofNat 21 n)]) ∧
    ∀ r ∈ rs, r.isSilent

/-- The last byte of a sequence. -/
theorem decodes_singleton {b : Byte} {d : DecInst} {n : Nat} (h : transRom d.state (classRom b) = .accept)
    (hacc : (stepCore d.state d.acc b).2 = BitVec.ofNat 21 n) : Decodes d [b] n := by
  refine ⟨[], ?_, by simp⟩
  simp [stepInst, h, hacc, stepResult_eq, stepOut_eq, acceptedRecord]

/-- A byte that the sequence goes on after. -/
theorem decodes_cons {b : Byte} {d : DecInst} {bs : List Byte} {n : Nat}
    (h : (transRom d.state (classRom b)).inProgress = true) (hbs : Decodes (stepInst b d).1 bs n) :
    Decodes d (b :: bs) n := by
  obtain ⟨rs, hrun, hsilent⟩ := hbs
  refine ⟨(stepInst b d).2 :: rs, by simp [hrun], ?_⟩
  obtain ⟨hacc, hrej⟩ := (inProgress_iff _).1 h
  simpa [DecResult.isSilent, stepOut_eq, hacc, hrej] using hsilent

/-- Cutting to 21 bits before a shift or after it is the same. -/
theorem shiftIn_ofNat (n : Nat) (b : Byte) :
    shiftIn (BitVec.ofNat 21 n) b = BitVec.ofNat 21 (n * 64 + b.toNat % 64) := by
  rw [shiftIn_eq_ofNat]
  apply BitVec.eq_of_toNat_eq
  simp only [BitVec.toNat_ofNat]
  omega

/-- The bytes that complete a sequence, stepped through its state, hand out its value. -/
theorem decodes_of_completedBy {bs : List Byte} {d : DecInst} {n : Nat} (hs : d.state.inProgress = true)
    (hacc : d.acc = BitVec.ofNat 21 n) (h : d.state.completedBy bs = true) : Decodes d bs (contValue n bs) := by
  induction bs generalizing d n with
  | nil =>
    rw [completedBy_nil, isAccept_iff] at h
    exact absurd h ((inProgress_iff _).1 hs).1
  | cons b bs ih =>
    rw [DecState.completedBy, hs, Bool.true_and] at h
    have hne : transRom d.state (classRom b) ≠ .reject := fun hr => by simp [hr] at h
    have hacc' : (stepCore d.state d.acc b).2 = BitVec.ofNat 21 (n * 64 + b.toNat % 64) := by
      rw [stepCore_acc_inProgress hs hne, hacc, shiftIn_ofNat]
    cases bs with
    | nil => exact decodes_singleton ((isAccept_iff _).1 h) hacc'
    | cons b' bs =>
      have hs' : (transRom d.state (classRom b)).inProgress = true := (Bool.and_eq_true_iff.1 h).1
      exact decodes_cons hs' (ih hs' hacc' h)

/-- From a START state a well-formed sequence hands out its payload (R62). -/
theorem decodes_of_wfSeq {bs : List Byte} {d : DecInst} (hs : d.state.isStart = true) (h : wfSeq bs = true) :
    Decodes d bs (payload bs) := by
  cases bs with
  | nil => cases h
  | cons b bs =>
    rw [payload_cons h]
    rw [wfSeq_cons, ← transRom_of_isStart hs] at h
    have hne : transRom d.state (classRom b) ≠ .reject := fun hr => by simp [hr] at h
    have hacc : (stepCore d.state d.acc b).2 = BitVec.ofNat 21 (seed b (classRom b)).toNat := by
      simp [stepCore, hne, hs]
    cases bs with
    | nil => exact decodes_singleton ((isAccept_iff _).1 h) hacc
    | cons b' bs =>
      have hs' : (transRom d.state (classRom b)).inProgress = true := (Bool.and_eq_true_iff.1 h).1
      exact decodes_cons hs' (decodes_of_completedBy hs' hacc h)

theorem acceptedOnce_append {rs : List DecResult} (h : ∀ r ∈ rs, r.isSilent) (a : Acc) :
    acceptedOnce (rs ++ [acceptedRecord a]) = true := by
  induction rs with
  | nil => rfl
  | cons r rs ih =>
    obtain ⟨⟨hdone, hrej, -⟩, hrs⟩ := List.forall_mem_cons.1 h
    cases rs with
    | nil => simp [acceptedOnce, hdone, hrej, acceptedRecord]
    | cons q qs => simpa [acceptedOnce, hdone, hrej] using ih hrs

/-- Bytes accepted as one sequence, after the first, complete the state that the first enters. -/
theorem completedBy_of_acceptedOnce {b : Byte} {bs : List Byte} {d : DecInst}
    (h : acceptedOnce (instRun stepInst (b :: bs) d).2 = true) :
    (transRom d.state (classRom b)).completedBy bs = true := by
  induction bs generalizing b d with
  | nil => exact h
  | cons b' bs ih =>
    simp only [instRun_cons, acceptedOnce, Bool.and_eq_true, Bool.not_eq_true', stepInst_done, stepInst_rej,
      isAccept_eq_false_iff, isReject_eq_false_iff] at h
    obtain ⟨hs, hrest⟩ := h
    rw [DecState.completedBy, (inProgress_iff _).2 hs, Bool.true_and]
    exact ih (d := (stepInst b d).1) hrest

/-- What is accepted from a START state is well-formed (R62). -/
theorem wfSeq_of_acceptedOnce {bs : List Byte} {d : DecInst} (hs : d.state.isStart = true)
    (h : acceptedOnce (instRun stepInst bs d).2 = true) : wfSeq bs = true := by
  cases bs with
  | nil => cases h
  | cons b bs =>
    rw [wfSeq_cons, ← transRom_of_isStart hs]
    exact completedBy_of_acceptedOnce h

/-- Settles O28: the run of the pair, which accepts exactly what completes the states it enters. -/
theorem acceptedExactlyTheTable : Obligations.AcceptedExactlyTheTable := by
  unfold Obligations.AcceptedExactlyTheTable
  intro s d bs hd hs
  obtain ⟨t, ht, hsel, hinsts, htsel, -⟩ := issueAll_steps decEffect_decStep bs hd
  refine ⟨t, _, ht, ?_, fun h => ?_⟩
  · rw [decRecords_map_dec]
    refine ⟨wfSeq_of_acceptedOnce hs, fun h => ?_⟩
    obtain ⟨rs, hrun, hsilent⟩ := decodes_of_wfSeq hs h
    rw [hrun]
    exact acceptedOnce_append hsilent _
  · obtain ⟨rs, hrun, -⟩ := decodes_of_wfSeq hs h
    rw [State.selected, htsel, hrun] at hsel
    rw [decRecords_map_dec, hrun]
    exact ⟨by simp [acceptedRecord], hsel, isScalar_payload h⟩

/-- Settles O30: the bytes of a scalar value are well-formed with that payload, and stepped through they are
accepted. -/
theorem roundTrip : Obligations.RoundTrip := by
  unfold Obligations.RoundTrip
  intro v s d hd hs
  refine ⟨_, encodeResult v, exec_of_encRecord rfl s, rfl, fun herr => ?_⟩
  rw [encodeResult_err, Bool.not_eq_false'] at herr
  obtain ⟨hwf, hpayload⟩ := encodeResult_bytes_wf herr
  have hle := ((isScalar_iff _).1 herr).1
  have hv : v.setWidth 21 = BitVec.ofNat 21 v.toNat := (BitVec.ofNat_toNat 21 v).symm
  obtain ⟨u, hu, -⟩ := issueAll_steps decEffect_decStep (encodeResult v).bytes
    (s := s.returns (.enc (encodeResult v))) hd
  obtain ⟨rs, hrun, hsilent⟩ := decodes_of_wfSeq hs hwf
  rw [hpayload, ← hv] at hrun
  refine ⟨u, _, hu, ?_, ?_, ?_, ?_, ?_⟩
  · rw [decRecords_map_dec, instRun_length, encodeResult_bytes_length]
    rfl
  · rw [decRecords_map_dec, hrun]
    exact acceptedOnce_append hsilent _
  · rw [decRecords_map_dec, hrun]
    intro r hr
    rcases List.mem_append.1 hr with hr | hr
    · obtain ⟨-, hrej, herr', hreplay, -⟩ := hsilent r hr
      exact ⟨hrej, herr', hreplay⟩
    · rw [List.mem_singleton.1 hr]
      exact ⟨rfl, rfl, rfl⟩
  · rw [decRecords_map_dec, hrun]
    simp [acceptedRecord]
  · rw [BitVec.toNat_setWidth, Nat.mod_eq_of_lt (by omega)]

/-! Reject runs (60_exceptions.md R95) -/

/-- The rising edges among verdicts, after the verdict `before`. -/
def risingEdges (before : Bool) (rejs : List Bool) : List Bool :=
  List.zipWith (fun before now => now && !before) (before :: rejs) rejs

theorem risingEdges_cons (before now : Bool) (rejs : List Bool) :
    risingEdges before (now :: rejs) = (now && !before) :: risingEdges now rejs := rfl

/-- `err` marks the rising edges of `rej`. -/
theorem instRun_err {f : Byte → DecInst → DecInst × DecResult} (hf : IsStep f) (bs : List Byte) (d : DecInst) :
    (instRun f bs d).2.map (fun r => r.err) =
      risingEdges d.state.isReject ((instRun f bs d).2.map (fun r => r.rej)) := by
  induction bs generalizing d with
  | nil => rfl
  | cons b bs ih =>
    rw [instRun_cons, List.map_cons, List.map_cons, risingEdges_cons, ih, hf.err, hf.rej, hf.state]

/-- The first run is one of the first verdict. -/
theorem runLengths_cons (y : Bool) (l : List Bool) : ∃ n rest, runLengths (y :: l) = (y, n) :: rest := by
  rw [runLengths]
  split
  · exact ⟨_, _, rfl⟩
  · split_ifs with h
    · exact ⟨_, _, by rw [h]⟩
    · exact ⟨_, _, rfl⟩

/-- One verdict more in front begins one run more, if it is a rejection and the next is not. -/
theorem rejectRuns_cons_cons (x y : Bool) (l : List Bool) :
    rejectRuns (x :: y :: l) = rejectRuns (y :: l) + (x && !y).toNat := by
  obtain ⟨n, rest, h⟩ := runLengths_cons y l
  rw [rejectRuns, rejectRuns, runLengths, h]
  cases x <;> cases y <;> simp

/-- Each run of rejections but one that begins the list begins with a rising edge. -/
theorem rejectRuns_cons (x : Bool) (l : List Bool) :
    rejectRuns (x :: l) = x.toNat + (risingEdges x l).countP id := by
  induction l generalizing x with
  | nil => cases x <;> rfl
  | cons y l ih =>
    rw [rejectRuns_cons_cons, ih, risingEdges_cons, List.countP_cons]
    cases x <;> cases y <;> simp <;> omega

/-- Each run of rejections begins with a rising edge, if no rejection came before. -/
theorem rejectRuns_eq (l : List Bool) : rejectRuns l = (risingEdges false l).countP id := by
  cases l with
  | nil => rfl
  | cons x l =>
    rw [rejectRuns_cons, risingEdges_cons, List.countP_cons]
    cases x <;> simp [Nat.add_comm]

/-- Settles O27: `err` marks the rising edges of `rej`, and there is one for each run. -/
theorem errCountsRejectRuns : Obligations.ErrCountsRejectRuns := by
  unfold Obligations.ErrCountsRejectRuns
  intro op hop s d bs hd hs
  obtain ⟨f, hf, hop⟩ := exists_isStep hop
  obtain ⟨t, ht, -⟩ := issueAll_steps hop bs hd
  have herr := instRun_err hf bs d
  rw [(isReject_eq_false_iff _).2 hs] at herr
  refine ⟨t, _, ht, ?_, ?_, ?_⟩
  · rw [decRecords_map_dec, instRun_length]
  · rw [decRecords_map_dec]
    exact herr
  · rw [decRecords_map_dec, rejectRuns_eq, ← herr, List.countP_map, List.countP_eq_length_filter]
    rfl

/-! The two kinds of step (40_decoder.md R63) -/

/-- Steps of the two kinds agree in the state and the bits, and steps of `DEC.VSTEP` keep the accumulator. -/
theorem instRun_step_vstep (bs : List Byte) {d e : DecInst} (h : d.state = e.state) :
    (instRun stepInst bs d).1.state = (instRun vstepInst bs e).1.state ∧
    (instRun stepInst bs d).2.map (fun r => (r.state, r.done, r.rej, r.err, r.replay)) =
      (instRun vstepInst bs e).2.map (fun r => (r.state, r.done, r.rej, r.err, r.replay)) ∧
    (instRun vstepInst bs e).1.acc = e.acc := by
  induction bs generalizing d e with
  | nil => exact ⟨h, rfl, rfl⟩
  | cons b bs ih =>
    obtain ⟨hstate, hbits, hacc⟩ := ih (d := (stepInst b d).1) (e := (vstepInst b e).1) (by simp [h])
    exact ⟨hstate, by simp [hbits, h], hacc⟩

/-- Settles O33: the runs of the two kinds on the addressed pair. -/
theorem stepAndVstepAgree : Obligations.StepAndVstepAgree := by
  unfold Obligations.StepAndVstepAgree
  intro s d bs hd
  obtain ⟨t, ht, -, hti, -⟩ := issueAll_steps decEffect_decStep bs hd
  obtain ⟨u, hu, -, hui, -⟩ := issueAll_steps decEffect_decVstep bs hd
  obtain ⟨hstate, hbits, hacc⟩ := instRun_step_vstep bs (d := d) rfl
  refine ⟨t, u, _, _, ht, hu, ?_, ?_, ?_⟩
  · rw [hti, hui, List.map_set, List.map_set, hstate]
  · rw [decRecords_map_dec, decRecords_map_dec, hbits]
  · rw [hui, List.map_set, hacc, ← List.map_set, ← State.putSelected_insts, State.putSelected_self hd]

end Sys2Proof.Machine
end

section
/-! SUPPORT. The streams (42_reference_driver.md R80 to R82, R89, R91; 30_encoding.md R51): the bytes a driver presents,
replays included, are one byte string stepped through the pair, and what the driver holds is counted in its records. -/

namespace Sys2Proof.Machine

/-! The bytes a driver presents -/

section Presented

variable (p : Policy) (f : Byte → DecInst → DecInst × DecResult)

/-- One byte as often as a driver presents it. -/
def presentedByte (b : Byte) (d : DecInst) : List Byte := if p.again (f b d).2 then [b, b] else [b]

/-- The bytes a driver presents to the pair `d` for the input `bs`: each byte, and again where the driver replays it. -/
def presented : List Byte → DecInst → List Byte
  | [], _ => []
  | b :: bs, d => presentedByte p f b d ++ presented bs (instRun f (presentedByte p f b d) d).1

end Presented

theorem instRun_append (f : Byte → DecInst → DecInst × DecResult) (xs ys : List Byte) (d : DecInst) :
    instRun f (xs ++ ys) d = ((instRun f ys (instRun f xs d).1).1,
      (instRun f xs d).2 ++ (instRun f ys (instRun f xs d).1).2) := by
  induction xs generalizing d with
  | nil => rfl
  | cons x xs ih => simp [ih]

section

variable {p : Policy} {f : Byte → DecInst → DecInst × DecResult}

/-- Every byte is presented once or twice. -/
theorem presented_length (bs : List Byte) (d : DecInst) :
    bs.length ≤ (presented p f bs d).length ∧ (presented p f bs d).length ≤ 2 * bs.length := by
  induction bs generalizing d with
  | nil => exact ⟨le_rfl, le_rfl⟩
  | cons b bs ih =>
    obtain ⟨hlo, hhi⟩ := ih (instRun f (presentedByte p f b d) d).1
    rw [presented, List.length_append, List.length_cons]
    have hbyte : 1 ≤ (presentedByte p f b d).length ∧ (presentedByte p f b d).length ≤ 2 := by
      unfold presentedByte
      split_ifs <;> simp
    omega

theorem presented_append (xs ys : List Byte) (d : DecInst) :
    presented p f (xs ++ ys) d = presented p f xs d ++ presented p f ys (instRun f (presented p f xs d) d).1 := by
  induction xs generalizing d with
  | nil => rfl
  | cons x xs ih => simp [presented, ih, instRun_append]

/-- Bytes none of which is replayed are presented once each. -/
theorem presented_of_not_again {bs : List Byte} {d : DecInst} (h : ∀ r ∈ (instRun f bs d).2, p.again r = false) :
    presented p f bs d = bs := by
  induction bs generalizing d with
  | nil => rfl
  | cons b bs ih =>
    obtain ⟨hb, hbs⟩ := List.forall_mem_cons.1 h
    simp [presented, presentedByte, hb, ih hbs]

/-- A byte that is replayed is presented, and then the input goes on with that byte. -/
theorem presented_of_again {b : Byte} {bs : List Byte} {d : DecInst} (h : p.again (f b d).2 = true)
    (h' : p.again (f b (f b d).1).2 = false) :
    presented p f (b :: bs) d = b :: presented p f (b :: bs) (f b d).1 := by
  simp [presented, presentedByte, h, h']

end

/-- No driver replays a byte twice: the first step of the two left `REJECT`, where a step neither errs nor asks for a
replay. -/
theorem not_again_twice {f : Byte → DecInst → DecInst × DecResult} (hf : IsStep f) {p : Policy} {b : Byte} {d : DecInst}
    (h : p.again (f b d).2 = true) : p.again (f b (f b d).1).2 = false := by
  have hrej : transRom d.state (classRom b) = .reject := by
    cases p <;> simp [Policy.again, hf.replay, hf.err] at h <;> exact h.1
  cases p <;> simp [Policy.again, hf.replay, hf.err, hf.state, hrej, DecState.inProgress, DecState.isStart]

/-! The loop of the driver is a run -/

/-- What a driver holds after the records `rs`, with the cursor at `cursor`. -/
def Driver.takeAll (g : Driver) (cursor : Nat) (rs : List DecResult) : Driver :=
  { cursor := cursor
    outs := g.outs ++ rs.flatMap (fun r => r.out.toList)
    nOk := g.nOk + rs.countP (fun r => r.done)
    nErr := g.nErr + rs.countP (fun r => r.err)
    steps := g.steps + rs.length
    nRej := g.nRej + rs.countP (fun r => r.rej) }

theorem Driver.takeAll_nil (g : Driver) : g.takeAll g.cursor [] = g := by
  simp [Driver.takeAll]

theorem countP_cons_toNat (q : DecResult → Bool) (r : DecResult) (rs : List DecResult) :
    (r :: rs).countP q = (q r).toNat + rs.countP q := by
  rw [List.countP_cons, Nat.add_comm]
  cases q r <;> rfl

theorem Driver.take_takeAll (g : Driver) (p : Policy) (r : DecResult) (cursor : Nat) (rs : List DecResult) :
    (g.take p r).takeAll cursor rs = g.takeAll cursor (r :: rs) := by
  simp only [Driver.takeAll, Driver.take, countP_cons_toNat, List.flatMap_cons, List.append_assoc, List.length_cons,
    Nat.add_assoc, Nat.add_comm 1]

theorem instLoop_at_end (f : Byte → DecInst → DecInst × DecResult) (p : Policy) {bs : List Byte} {g : Driver}
    (h : bs.length ≤ g.cursor) (n : Nat) (d : DecInst) : instLoop f p bs n d g = (d, g) := by
  cases n with
  | zero => rfl
  | succ n => simp [instLoop, h]

theorem instLoop_step (f : Byte → DecInst → DecInst × DecResult) {p : Policy} (hp : p ≠ .initAfterReject)
    {bs : List Byte} {g : Driver} {b : Byte} (h : bs[g.cursor]? = some b) (n : Nat) (d : DecInst) :
    instLoop f p bs (n + 1) d g = instLoop f p bs n (f b d).1 (g.take p (f b d).2) := by
  simp [instLoop, h, instPresent, hp]

/-- With two steps for each byte that is left, the loop comes to the end of the input (R81, R89). -/
theorem instLoop_eq {f : Byte → DecInst → DecInst × DecResult} (hf : IsStep f) {p : Policy}
    (hp : p ≠ .initAfterReject) (bs : List Byte) {pre : List Byte} {g : Driver} (hg : g.cursor = pre.length)
    {n : Nat} (hn : 2 * bs.length ≤ n) (d : DecInst) :
    instLoop f p (pre ++ bs) n d g = ((instRun f (presented p f bs d) d).1,
      g.takeAll (pre ++ bs).length (instRun f (presented p f bs d) d).2) := by
  induction bs generalizing pre n d g with
  | nil =>
    rw [List.append_nil, instLoop_at_end f p (by omega), ← hg]
    simp [presented, Driver.takeAll_nil]
  | cons b bs ih =>
    obtain ⟨n, rfl⟩ : ∃ m, n = m + 2 := ⟨n - 2, by rw [List.length_cons] at hn; omega⟩
    rw [List.length_cons] at hn
    have hb : (pre ++ b :: bs)[g.cursor]? = some b := by simp [hg]
    have hsplit : pre ++ b :: bs = (pre ++ [b]) ++ bs := by simp
    rw [instLoop_step f hp hb]
    cases hagain : p.again (f b d).2 with
    | false =>
      have hcursor : (g.take p (f b d).2).cursor = (pre ++ [b]).length := by simp [Driver.take, hagain, hg]
      rw [hsplit, ih hcursor (by omega)]
      simp [presented, presentedByte, hagain, Driver.take_takeAll]
    | true =>
      have hagain' := not_again_twice hf hagain
      have hb' : (pre ++ b :: bs)[(g.take p (f b d).2).cursor]? = some b := by simp [Driver.take, hagain, hg]
      have hcursor : ((g.take p (f b d).2).take p (f b (f b d).1).2).cursor = (pre ++ [b]).length := by
        simp [Driver.take, hagain, hagain', hg]
      rw [instLoop_step f hp hb', hsplit, ih hcursor (by omega)]
      simp [presented, presentedByte, hagain, Driver.take_takeAll]

/-! The streams -/

/-- The run of a whole stream: the bytes its driver presents, from the start pair. -/
def streamRun (p : Policy) (f : Byte → DecInst → DecInst × DecResult) (bs : List Byte) : DecInst × List DecResult :=
  instRun f (presented p f bs DecInst.start) DecInst.start

/-- What the driver holds at the end: its counts over the records, and one error more for a truncated tail. -/
def streamDriver (p : Policy) (f : Byte → DecInst → DecInst × DecResult) (bs : List Byte) : Driver :=
  { cursor := bs.length
    outs := (streamRun p f bs).2.flatMap (fun r => r.out.toList)
    nOk := (streamRun p f bs).2.countP (fun r => r.done)
    nErr := (streamRun p f bs).2.countP (fun r => r.err) + (streamRun p f bs).1.state.inProgress.toNat
    steps := (streamRun p f bs).2.length
    nRej := (streamRun p f bs).2.countP (fun r => r.rej) }

/-- The machine after a whole stream: the addressed instance at the start pair, and the record of `DEC.FINISH`. -/
def State.afterStream (s : State) (p : Policy) (f : Byte → DecInst → DecInst × DecResult) (bs : List Byte) : State :=
  (s.putSelected DecInst.start).returns (.dec (quietResult (streamRun p f bs).1.state.inProgress))

theorem State.eq_of_fields {s t : State} (hi : s.insts = t.insts) (hs : s.sel = t.sel) (hp : s.pending = t.pending)
    (hr : s.result = t.result) : s = t := by
  cases s; cases t; cases hi; cases hs; cases hp; cases hr; rfl

/-- A whole stream, said once. -/
theorem runStream_eq_streamDriver {op : Byte → Instr} {f : Byte → DecInst → DecInst × DecResult} (hf : IsStep f)
    (hop : ∀ b, decEffect (op b) = some (f b)) {p : Policy} (hp : p ≠ .initAfterReject) (bs : List Byte) {s : State}
    {d : DecInst} (h : s.selected = some d) :
    runStream op p bs s = .next (s.afterStream p f bs, streamDriver p f bs) := by
  obtain ⟨t, ht, hres, hi, hs, hpend⟩ := runStream_eq hop p bs h
  have hloop := instLoop_eq hf hp bs (pre := []) (g := Driver.start) rfl le_rfl DecInst.start
  rw [List.nil_append] at hloop
  rw [hloop] at ht hres
  have hafter : t = s.afterStream p f bs := State.eq_of_fields hi hs hpend hres
  rw [ht, hafter]
  simp [streamDriver, streamRun, Driver.takeAll, Driver.start]

/-- A `DEC.STEP` hands out one scalar on `done` and on `err`, which exclude each other. -/
theorem instRun_outs_length (bs : List Byte) (d : DecInst) :
    ((instRun stepInst bs d).2.flatMap (fun r => r.out.toList)).length =
      (instRun stepInst bs d).2.countP (fun r => r.done) + (instRun stepInst bs d).2.countP (fun r => r.err) := by
  induction bs generalizing d with
  | nil => rfl
  | cons b bs ih =>
    have hstep : (stepInst b d).2.out.toList.length = (stepInst b d).2.done.toNat + (stepInst b d).2.err.toNat := by
      rw [stepInst_out, stepOut_eq, stepInst_done, stepInst_err]
      cases transRom d.state (classRom b) <;> cases d.state <;> rfl
    rw [instRun_cons, List.flatMap_cons, List.length_append, ih, hstep, countP_cons_toNat, countP_cons_toNat]
    omega

/-- Settles O49: the records of the run are those of the bytes presented, each of which hands out at most one scalar. -/
theorem streamCounts : Obligations.StreamCounts := by
  unfold Obligations.StreamCounts
  intro bs s d hd
  obtain ⟨hlo, hhi⟩ := presented_length (p := .obey) (f := stepInst) bs DecInst.start
  have houts := instRun_outs_length (presented .obey stepInst bs DecInst.start) DecInst.start
  refine ⟨_, _, _, runStream_eq_streamDriver isStep_stepInst decEffect_decStep (by decide) bs hd, rfl, rfl, ?_, ?_, ?_,
    rfl⟩
  · rwa [streamDriver, streamRun, instRun_length]
  · rwa [streamDriver, streamRun, instRun_length]
  · simp only [streamDriver, streamRun, houts, quietResult]
    omega

/-! Validating (R81, 40_decoder.md R63) -/

/-- Which bytes are replayed does not depend on the accumulator, nor on the kind of step. -/
theorem presented_step_vstep (bs : List Byte) {d e : DecInst} (h : d.state = e.state) :
    presented .obey stepInst bs d = presented .obey vstepInst bs e := by
  induction bs generalizing d e with
  | nil => rfl
  | cons b bs ih =>
    have hbyte : presentedByte .obey stepInst b d = presentedByte .obey vstepInst b e := by
      simp [presentedByte, Policy.again, h]
    rw [presented, presented, hbyte, ih (instRun_step_vstep _ h).1]

theorem instRun_vstep_outs (bs : List Byte) (d : DecInst) :
    (instRun vstepInst bs d).2.flatMap (fun r => r.out.toList) = [] := by
  induction bs generalizing d with
  | nil => rfl
  | cons b bs ih => simp [ih]

/-- Settles O50: both drivers present the same bytes, and the records agree in their bits. -/
theorem validateCountsAsDecode : Obligations.ValidateCountsAsDecode := by
  unfold Obligations.ValidateCountsAsDecode
  intro bs s d hd
  have hpres := presented_step_vstep bs (d := DecInst.start) rfl
  obtain ⟨hstate, hbits, -⟩ := instRun_step_vstep (presented .obey stepInst bs DecInst.start) (d := DecInst.start) rfl
  have hcount := fun q : DecState × Bool × Bool × Bool × Bool → Bool => congrArg (List.countP q) hbits
  simp only [List.countP_map] at hcount
  refine ⟨_, _, _, _, runStream_eq_streamDriver isStep_stepInst decEffect_decStep (by decide) bs hd,
    runStream_eq_streamDriver isStep_vstepInst decEffect_decVstep (by decide) bs hd, ?_, ?_, ?_, ?_, ?_⟩ <;>
    simp only [streamDriver, streamRun, ← hpres, hstate]
  · exact hcount (fun x => x.2.1)
  · exact congrArg (· + _) (hcount (fun x => x.2.2.2.1))
  · rw [instRun_length, instRun_length]
  · exact hcount (fun x => x.2.2.1)
  · exact instRun_vstep_outs _ _

/-! Replaying more than asked for (40_decoder.md R58, 95_test_vectors.md X5) -/

/-- What a driver learns from records: the scalars and the two counts. -/
def gains (rs : List DecResult) : List Acc × Nat × Nat :=
  (rs.flatMap (fun r => r.out.toList), rs.countP (fun r => r.done), rs.countP (fun r => r.err))

theorem gains_append (rs qs : List DecResult) : gains (rs ++ qs) =
    ((gains rs).1 ++ (gains qs).1, (gains rs).2.1 + (gains qs).2.1, (gains rs).2.2 + (gains qs).2.2) := by
  simp [gains]

/-- A byte replayed because of `err` alone has been rejected in a START state: it is rejected again, with nothing
gained. -/
theorem presentedByte_replayFirstReject (b : Byte) (d : DecInst) :
    (instRun stepInst (presentedByte .replayFirstReject stepInst b d) d).1 =
      (instRun stepInst (presentedByte .obey stepInst b d) d).1 ∧
    gains (instRun stepInst (presentedByte .replayFirstReject stepInst b d) d).2 =
      gains (instRun stepInst (presentedByte .obey stepInst b d) d).2 := by
  by_cases h : d.state.isStart = true ∧ transRom d.state (classRom b) = .reject
  · obtain ⟨hs, hrej⟩ := h
    have hreplay : (stepInst b d).2.replay = false := by simp [DecState.inProgress, hs]
    have hobey : presentedByte .obey stepInst b d = [b] := by rw [presentedByte, Policy.again, hreplay]; rfl
    cases herr : (stepInst b d).2.err with
    | false =>
      have hfirst : presentedByte .replayFirstReject stepInst b d = [b] := by
        rw [presentedByte, Policy.again, herr]; rfl
      rw [hobey, hfirst]
      exact ⟨rfl, rfl⟩
    | true =>
      have hfirst : presentedByte .replayFirstReject stepInst b d = [b, b] := by
        rw [presentedByte, Policy.again, herr]; rfl
      rw [hobey, hfirst, instRun_cons, instRun_cons, stepInst_reject_again hs hrej]
      have hquiet : gains [stepResult .reject .reject none] = ([], 0, 0) := rfl
      exact ⟨rfl, (gains_append [(stepInst b d).2] [_]).trans (by rw [hquiet]; simp)⟩
  · have hsame : (stepInst b d).2.err = (stepInst b d).2.replay := by
      rw [stepInst_err, stepInst_replay]
      revert h
      cases d.state <;> cases transRom _ (classRom b) <;> decide
    have hbyte : presentedByte .replayFirstReject stepInst b d = presentedByte .obey stepInst b d := by
      rw [presentedByte, Policy.again, hsame]; rfl
    rw [hbyte]
    exact ⟨rfl, rfl⟩

theorem presented_replayFirstReject (bs : List Byte) (d : DecInst) :
    (instRun stepInst (presented .replayFirstReject stepInst bs d) d).1 =
      (instRun stepInst (presented .obey stepInst bs d) d).1 ∧
    gains (instRun stepInst (presented .replayFirstReject stepInst bs d) d).2 =
      gains (instRun stepInst (presented .obey stepInst bs d) d).2 := by
  induction bs generalizing d with
  | nil => exact ⟨rfl, rfl⟩
  | cons b bs ih =>
    obtain ⟨hpair, hgains⟩ := presentedByte_replayFirstReject b d
    obtain ⟨hpair', hgains'⟩ := ih (instRun stepInst (presentedByte .obey stepInst b d) d).1
    simp only [presented, instRun_append, hpair, gains_append, hgains, hgains', hpair', and_self]

/-- Settles O51: the two drivers gain the same from the same pair, byte by byte. -/
theorem replayingEveryFirstRejectIsTheSame : Obligations.ReplayingEveryFirstRejectIsTheSame := by
  unfold Obligations.ReplayingEveryFirstRejectIsTheSame
  intro bs s d hd
  obtain ⟨hpair, hgains⟩ := presented_replayFirstReject bs DecInst.start
  obtain ⟨houts, hcounts⟩ := Prod.mk.inj hgains
  obtain ⟨hdone, herr⟩ := Prod.mk.inj hcounts
  refine ⟨_, _, _, _, runStream_eq_streamDriver isStep_stepInst decEffect_decStep (by decide) bs hd,
    runStream_eq_streamDriver isStep_stepInst decEffect_decStep (by decide) bs hd, rfl, rfl, houts.symm, hdone.symm, ?_,
    rfl⟩
  simp only [streamDriver, streamRun, hpair, herr]

end Sys2Proof.Machine
end

section
/-! SUPPORT. The feeds and the string lines (30_encoding.md R51), a well-formed sequence fed to any instance
(40_decoder.md R60), and decoding what was encoded (42_reference_driver.md R91). -/

namespace Sys2Proof.Machine

/-! The string lines are the streams (R51) -/

/-- Two lists of operations one after the other. -/
theorem issueAll_append (is js : List Instr) (s : State) :
    issueAll (is ++ js) s = andThen (issueAll is s) fun tr =>
      andThen (issueAll js tr.1) fun ur => .next (ur.1, tr.2 ++ ur.2) := by
  induction is generalizing s with
  | nil => simp only [List.nil_append, issueAll, andThen_next]; cases issueAll js s <;> rfl
  | cons i is ih =>
    rw [List.cons_append, issueAll, issueAll]
    cases exec i s with
    | fault r => rfl
    | refused r => rfl
    | next t =>
      simp only [andThen_next, ih]
      cases issueAll is t with
      | fault r => rfl
      | refused r => rfl
      | next ur => simp only [andThen_next]; cases issueAll js ur.1 <;> simp

/-- The feeds of a byte string issue the bytes a driver that obeys `replay` presents. -/
theorem feedAll_eq_issueAll {op : Byte → Instr} {f : Byte → DecInst → DecInst × DecResult}
    (hop : ∀ b, decEffect (op b) = some (f b)) (bs : List Byte) {s : State} {d : DecInst} (h : s.selected = some d) :
    feedAll op bs s = issueAll ((presented .obey f bs d).map op) s := by
  induction bs generalizing s d with
  | nil => rfl
  | cons b bs ih =>
    have hfeed : feed op b s = issueAll ((presentedByte .obey f b d).map op) s := by
      rw [feed_eq_issueAll hop b h, presentedByte, Policy.again]
      split_ifs <;> rfl
    obtain ⟨t, ht, hsel, -⟩ := issueAll_steps hop (presentedByte .obey f b d) h
    rw [feedAll, presented, List.map_append, issueAll_append, hfeed, ht, andThen_next, andThen_next, ih hsel]

/-- The records of a string line: of `DEC.INIT`, of the bytes presented, and of `DEC.FINISH`. -/
def stringRecords (f : Byte → DecInst → DecInst × DecResult) (bs : List Byte) : List DecResult :=
  quietResult false :: ((streamRun .obey f bs).2 ++ [quietResult (streamRun .obey f bs).1.state.inProgress])

/-- A string line, said once: it leaves the machine as the stream does. -/
theorem feedString_eq {op : Byte → Instr} {f : Byte → DecInst → DecInst × DecResult}
    (hop : ∀ b, decEffect (op b) = some (f b)) (bs : List Byte) {s : State} {d : DecInst} (h : s.selected = some d) :
    feedString op bs s = .next (s.afterStream .obey f bs, (stringRecords f bs).map .dec) := by
  have h0 : exec .decInit s = .next ((s.putSelected DecInst.start).returns (.dec (quietResult false))) :=
    exec_of_selected (i := .decInit) rfl h
  have hstart : ((s.putSelected DecInst.start).returns (.dec (quietResult false))).selected = some DecInst.start :=
    State.putSelected_selected h _
  obtain ⟨t, ht, tsel, ti, ts, tp⟩ := issueAll_steps hop (presented .obey f bs DecInst.start) hstart
  have h1 : exec .decFinish t = _ := exec_of_selected (i := .decFinish) rfl tsel
  have hafter : (t.putSelected DecInst.start).returns
      (.dec (quietResult (streamRun .obey f bs).1.state.inProgress)) = s.afterStream .obey f bs :=
    State.eq_of_fields (by simp [State.afterStream, ti, ts]) ts tp rfl
  rw [feedString, h0, andThen_next, feedAll_eq_issueAll hop bs hstart, ht, andThen_next, h1, andThen_next]
  simp only [finishInst]
  rw [← streamRun, hafter]
  simp [stringRecords, streamRun, State.afterStream]

/-- What the records of a string line hold is what the driver of the stream holds. -/
theorem stringRecords_counts (f : Byte → DecInst → DecInst × DecResult) (bs : List Byte) :
    (stringRecords f bs).length = (streamDriver .obey f bs).steps + 2 ∧
    (stringRecords f bs).flatMap (fun q => q.out.toList) = (streamDriver .obey f bs).outs ∧
    ((stringRecords f bs).filter (fun q => q.done)).length = (streamDriver .obey f bs).nOk ∧
    ((stringRecords f bs).filter (fun q => q.err)).length = (streamDriver .obey f bs).nErr := by
  simp only [← List.countP_eq_length_filter]
  refine ⟨by simp [stringRecords, streamDriver], by simp [stringRecords, streamDriver, quietResult],
    by simp [stringRecords, streamDriver, quietResult], ?_⟩
  cases h : (streamRun .obey f bs).1.state.inProgress <;> simp [stringRecords, streamDriver, quietResult, h]

/-- Settles O54: the line and the stream in closed form, for both kinds of step. -/
theorem stringLineIsTheStream : Obligations.StringLineIsTheStream := by
  unfold Obligations.StringLineIsTheStream
  intro bs s d hd
  have hstream := runStream_eq_streamDriver (p := .obey) isStep_stepInst decEffect_decStep (by decide) bs hd
  have hvstream := runStream_eq_streamDriver (p := .obey) isStep_vstepInst decEffect_decVstep (by decide) bs hd
  obtain ⟨hlen, houts, hdone, herr⟩ := stringRecords_counts stepInst bs
  obtain ⟨hvlen, -, hvdone, hverr⟩ := stringRecords_counts vstepInst bs
  refine ⟨⟨_, _, _, hstream, feedString_eq decEffect_decStep bs hd, ?_⟩,
    ⟨_, _, _, hvstream, feedString_eq decEffect_decVstep bs hd, ?_⟩⟩ <;>
    rw [List.length_map, decRecords_map_dec]
  · exact ⟨hlen, houts, hdone, herr⟩
  · exact ⟨hvlen, hvdone, hverr⟩

/-! A well-formed sequence fed to any instance (40_decoder.md R60) -/

/-- The records of a sequence ask for no replay. -/
theorem presented_of_decodes {d : DecInst} {bs : List Byte} {n : Nat} (h : Decodes d bs n) :
    presented .obey stepInst bs d = bs := by
  obtain ⟨rs, hrun, hsilent⟩ := h
  refine presented_of_not_again fun r hr => ?_
  rw [hrun] at hr
  rcases List.mem_append.1 hr with hr | hr
  · exact (hsilent r hr).2.2.2.1
  · rw [List.mem_singleton.1 hr]
    rfl

/-- A class that an IN-PROGRESS state takes starts no sequence. -/
theorem startRow_of_mem_nextClasses {s : DecState} {c : ByteClass} (h : c ∈ s.nextClasses) : startRow c = .reject := by
  revert h
  cases s <;> cases c <;> decide

/-- The first byte of a well-formed sequence is rejected by an instance in progress. -/
theorem transRom_of_wfSeq {s : DecState} (hs : s.inProgress = true) {b : Byte} {bs : List Byte}
    (h : wfSeq (b :: bs) = true) : transRom s (classRom b) = .reject := by
  rw [transRom_of_inProgress hs, if_neg]
  intro hmem
  rw [wfSeq_cons, startRow_of_mem_nextClasses hmem, completedBy_reject] at h
  cases h

/-- What is presented of a well-formed sequence: it, and once more its first byte to an instance in progress. The
records end with the one of its value. -/
theorem presented_of_wfSeq {bs : List Byte} (h : wfSeq bs = true) (d : DecInst) :
    ∃ rs, (instRun stepInst (presented .obey stepInst bs d) d).2 =
        rs ++ [acceptedRecord (BitVec.ofNat 21 (payload bs))] ∧
      (presented .obey stepInst bs d).length = bs.length + d.state.inProgress.toNat := by
  cases hs : d.state.inProgress with
  | false =>
    have hdec := decodes_of_wfSeq (d := d) (by simpa [DecState.inProgress] using hs) h
    obtain ⟨rs, hrun, -⟩ := id hdec
    rw [presented_of_decodes hdec]
    exact ⟨rs, by rw [hrun], rfl⟩
  | true =>
    cases bs with
    | nil => cases h
    | cons b bs =>
      have hrej := transRom_of_wfSeq hs h
      have hagain : Policy.again .obey (stepInst b d).2 = true := by simp [Policy.again, hrej, hs, DecState.isReject]
      have hdec := decodes_of_wfSeq (d := (stepInst b d).1) (by simp [hrej, DecState.isStart]) h
      obtain ⟨rs, hrun, -⟩ := id hdec
      rw [presented_of_again hagain (not_again_twice isStep_stepInst hagain), presented_of_decodes hdec]
      exact ⟨(stepInst b d).2 :: rs, by rw [instRun_cons, hrun]; rfl, by simp⟩

/-- Settles O26: what the feeds issue is what is presented. -/
theorem wellFormedDecodedFromEveryState : Obligations.WellFormedDecodedFromEveryState := by
  unfold Obligations.WellFormedDecodedFromEveryState
  intro s d bs hd hwf
  obtain ⟨rs, hrun, hlen⟩ := presented_of_wfSeq hwf d
  obtain ⟨t, ht, -⟩ := issueAll_steps decEffect_decStep (presented .obey stepInst bs d) hd
  refine ⟨t, _, acceptedRecord (BitVec.ofNat 21 (payload bs)),
    (feedAll_eq_issueAll decEffect_decStep bs hd).trans ht, ?_, rfl, rfl, ?_⟩
  · rw [hrun]
    simp
  · rw [List.length_map, instRun_length, hlen]

/-! Decoding what was encoded (42_reference_driver.md R91) -/

/-- Within a sequence nothing is gained. -/
theorem gains_of_silent {rs : List DecResult} (h : ∀ r ∈ rs, r.isSilent) : gains rs = ([], 0, 0) := by
  induction rs with
  | nil => rfl
  | cons r rs ih =>
    obtain ⟨⟨hdone, -, herr, -, hout⟩, hrs⟩ := List.forall_mem_cons.1 h
    rw [← List.singleton_append, gains_append, ih hrs]
    simp [gains, hdone, herr, hout]

/-- What is gained from one sequence is its value. -/
theorem gains_of_decodes {d : DecInst} {bs : List Byte} {n : Nat} (h : Decodes d bs n) :
    gains (instRun stepInst bs d).2 = ([BitVec.ofNat 21 n], 1, 0) := by
  obtain ⟨rs, hrun, hsilent⟩ := h
  rw [hrun, gains_append, gains_of_silent hsilent]
  rfl

/-- The encodings of scalar values, one behind the other, from a START state: the values are handed out, each with
`done`, and the pair is in a START state again. -/
theorem instRun_encodings {vs : List Scalar} (h : ∀ v ∈ vs, isScalar v.toNat = true) {d : DecInst}
    (hs : d.state.isStart = true) {bs : List Byte} (hbs : bs = vs.flatMap fun v => (encodeResult v).bytes) :
    (instRun stepInst (presented .obey stepInst bs d) d).1.state.isStart = true ∧
    gains (instRun stepInst (presented .obey stepInst bs d) d).2 =
      (vs.map (fun v => BitVec.ofNat 21 v.toNat), vs.length, 0) := by
  subst hbs
  induction vs generalizing d with
  | nil => exact ⟨hs, rfl⟩
  | cons v vs ih =>
    obtain ⟨hv, hvs⟩ := List.forall_mem_cons.1 h
    obtain ⟨hwf, hpayload⟩ := encodeResult_bytes_wf hv
    have hdec : Decodes d (encodeResult v).bytes v.toNat := hpayload ▸ decodes_of_wfSeq hs hwf
    have hmid : (instRun stepInst (encodeResult v).bytes d).1.state.isStart = true := by
      obtain ⟨rs, hrun, -⟩ := hdec
      rw [hrun]
      rfl
    obtain ⟨hs', hgains'⟩ := ih hvs hmid
    rw [List.flatMap_cons, presented_append, presented_of_decodes hdec, instRun_append]
    refine ⟨hs', ?_⟩
    rw [gains_append, gains_of_decodes hdec, hgains']
    simp [Nat.add_comm]

/-- Settles O48: the bytes are the encodings of the values themselves, and decoding them gains the values. -/
theorem decodeOfEncodeIsTheList : Obligations.DecodeOfEncodeIsTheList := by
  unfold Obligations.DecodeOfEncodeIsTheList
  intro vs s d hd hvs
  obtain ⟨t, ht, hti, hts⟩ := encodeStream_eq vs s
  have htd : t.selected = some d := by rw [State.selected, hti, hts]; exact hd
  have hbytes : (EncDriver.start.after encodeResult EncResult.bytes vs).bytes =
      vs.flatMap fun v => (encodeResult v).bytes := by
    simp only [EncDriver.after, EncDriver.start, List.nil_append]
    exact List.flatMap_congr fun v hv => by rw [substituteOf, if_pos (hvs v hv)]
  obtain ⟨hs, hgains⟩ := instRun_encodings hvs (d := DecInst.start) rfl hbytes
  simp only [gains, Prod.mk.injEq] at hgains
  obtain ⟨houts, hdone, herr⟩ := hgains
  refine ⟨t, _, _, _, ht, ?_, ?_,
    runStream_eq_streamDriver isStep_stepInst decEffect_decStep (by decide) _ htd, ?_, ?_, ?_⟩
  · simp only [EncDriver.after, EncDriver.start, Nat.zero_add, List.filter_eq_self.2 hvs]
  · simpa [EncDriver.after, EncDriver.start] using hvs
  · simp only [streamDriver, streamRun, houts, List.map_map]
    refine List.map_congr_left fun v hv => ?_
    have := ((isScalar_iff _).1 (hvs v hv)).1
    exact Nat.mod_eq_of_lt (by omega)
  · exact hdone
  · simp only [streamDriver, streamRun, herr, DecState.inProgress, hs]
    rfl

end Sys2Proof.Machine
end

section
/-! SUPPORT. The pairs of the table of R15 (10_state.md section 2): every step keeps them, and every one of them
occurs. -/

namespace Sys2Proof.Machine

/-- The table of R15, on numbers: the values of `ACC` with each state. -/
def tabledAcc (s : DecState) (a : Nat) : Prop :=
  match s with
  | .accept => a ≤ 0x10FFFF ∧ ¬(0xD800 ≤ a ∧ a ≤ 0xDFFF)
  | .reject => a = 0
  | .cont1 => (0x2 ≤ a ∧ a ≤ 0x35F) ∨ (0x380 ≤ a ∧ a ≤ 0x43FF)
  | .cont2 => (0x1 ≤ a ∧ a ≤ 0xC) ∨ (0xE ≤ a ∧ a ≤ 0x10F)
  | .cont2E0 => a = 0x0
  | .cont2ED => a = 0xD
  | .cont3 => 0x1 ≤ a ∧ a ≤ 0x3
  | .cont3F0 => a = 0x0
  | .cont3F4 => a = 0x4

theorem tabled_iff (d : DecInst) : d.tabled = true ↔ tabledAcc d.state d.acc.toNat := by
  unfold DecInst.tabled
  cases d.state <;> simp [tabledAcc, isScalar_iff]

/-! Every step keeps the table (R15) -/

/-- A first byte leads to a pair of the table. -/
theorem tabledAcc_seed (b : Byte) (h : startRow (classRom b) ≠ .reject) :
    tabledAcc (startRow (classRom b)) (seed b (classRom b)).toNat := by
  have hb := mem_ranges_classRom b
  rw [seed_toNat]
  cases hc : classRom b <;> rw [hc] at hb h <;>
    simp [ByteClass.ranges, startRow, tabledAcc, seedMask] at hb h ⊢ <;> omega

/-- A continuation byte leads from a pair of the table to a pair of the table. -/
theorem tabledAcc_shift {s : DecState} (hs : s.inProgress = true) {a n : Nat} (ha : tabledAcc s a)
    (hn : s.nextRange.1 ≤ n ∧ n ≤ s.nextRange.2) : tabledAcc (unrestricted (s.owed - 1)) (a * 64 + n % 64) := by
  cases s with
  | accept => cases hs
  | reject => cases hs
  | _ => simp only [tabledAcc, DecState.nextRange, DecState.owed, unrestricted] at ha hn ⊢; omega

theorem stepInst_tabled {d : DecInst} (h : d.tabled = true) (b : Byte) : (stepInst b d).1.tabled = true := by
  by_cases hrej : transRom d.state (classRom b) = .reject
  · rw [(stepInst_of_reject hrej).1]
    rfl
  cases hs : d.state.isStart with
  | true =>
    have hrow := transRom_of_isStart hs (classRom b)
    rw [tabled_iff, stepInst_state, stepInst_acc, stepCore_of_isStart hs, hrow]
    rw [hrow] at hrej
    simpa [hrej] using tabledAcc_seed b hrej
  | false =>
    have hs' : d.state.inProgress = true := by simp [DecState.inProgress, hs]
    have hb : d.state.nextRange.1 ≤ b.toNat ∧ b.toNat ≤ d.state.nextRange.2 :=
      not_not.1 ((transRom_classRom_eq_reject_iff hs' b).not.1 hrej)
    rw [tabled_iff, stepInst_state, stepInst_acc_of_tabled h hs' hrej, transRom_classRom_of_inProgress hs', if_pos hb]
    exact tabledAcc_shift hs' ((tabled_iff d).1 h) hb

/-- Every decoder operation but `DEC.VSTEP` leaves a pair of the table. -/
theorem decEffect_tabled {i : Instr} {f : DecInst → DecInst × DecResult} (hf : decEffect i = some f)
    (hi : ∀ b, i ≠ .decVstep b) {d : DecInst} (h : d.tabled = true) : (f d).1.tabled = true := by
  cases i <;> cases hf
  case decInit => rfl
  case decStep b => exact stepInst_tabled h b
  case decVstep b => exact absurd rfl (hi b)
  case decFinish => rfl

/-- Settles O44: the step writes one pair, and a pair of the table. -/
theorem stepKeepsTheTabledPairs : Obligations.StepKeepsTheTabledPairs := by
  unfold Obligations.StepKeepsTheTabledPairs
  intro s t hs ht
  obtain ⟨-, rfl⟩ | ⟨r, rest, i, hp, hi, ht⟩ := step_eq_next ht
  · exact hs
  simp only [State.tabled, hp, List.all_cons, hi, Bool.and_eq_true, List.all_eq_true] at hs ⊢
  obtain ⟨hinsts, hnot, hrest⟩ := hs
  have hv : ∀ b, i ≠ .decVstep b := by
    rintro b rfl
    cases hnot
  obtain ⟨-, -, -, hpend⟩ := onlyOwnRegistersChange _ _ _ ht
  rw [hpend]
  refine ⟨fun x hx => ?_, hrest⟩
  obtain ⟨f, d, hf, hd, rfl⟩ | ⟨e, -, rfl⟩ := exec_eq_next ht
  · rcases List.mem_or_eq_of_mem_set hx with hx | rfl
    · exact hinsts x hx
    · exact decEffect_tabled hf hv (hinsts d (List.mem_of_getElem? hd))
  · exact hinsts x hx

/-! Every pair of the table occurs (R15) -/

/-- Some bytes lead from the start pair to the state `s` with the accumulator `n`. -/
def Occurs (s : DecState) (n : Nat) : Prop :=
  ∃ bs, (instRun stepInst bs DecInst.start).1 = ⟨s, BitVec.ofNat 21 n⟩

/-- One byte more. -/
theorem occurs_step {s s' : DecState} {n n' : Nat} (h : Occurs s n) {b : Byte}
    (hb : (stepInst b ⟨s, BitVec.ofNat 21 n⟩).1 = ⟨s', BitVec.ofNat 21 n'⟩) : Occurs s' n' := by
  obtain ⟨bs, hbs⟩ := h
  refine ⟨bs ++ [b], ?_⟩
  rw [instRun_append, hbs]
  exact hb

/-- The pairs entered by a first byte `n` of the class `c`. -/
theorem occurs_lead (c : ByteClass) (hc : startRow c ≠ .reject) {n a : Nat} (hn : n < 256)
    (hr : ∃ g ∈ c.ranges, g.1 ≤ n ∧ n ≤ g.2) (ha : n % ((seedMask c).toNat + 1) = a) : Occurs (startRow c) a := by
  have hnat : (BitVec.ofNat 8 n).toNat = n := Nat.mod_eq_of_lt hn
  have hclass : classRom (BitVec.ofNat 8 n) = c := by rw [classRom_eq_iff, hnat]; exact hr
  have hseed : seed (BitVec.ofNat 8 n) c = BitVec.ofNat 21 a := by
    rw [← ha, ← hnat, ← seed_toNat, hnat, BitVec.ofNat_toNat, BitVec.setWidth_eq]
  refine occurs_step (s := .accept) (n := 0) ⟨[], rfl⟩ (b := BitVec.ofNat 8 n) ?_
  simp [stepInst, stepCore_of_isStart (s := .accept) rfl, hclass, hc, hseed]

/-- A pair with the accumulator `a` is entered by the continuation byte that holds its last six bits. -/
theorem occurs_shift {s : DecState} {a : Nat} (h : Occurs s (a / 64)) (hs : s.inProgress = true)
    (hr : s.nextRange.1 ≤ 0x80 + a % 64 ∧ 0x80 + a % 64 ≤ s.nextRange.2) : Occurs (unrestricted (s.owed - 1)) a := by
  have hnat : (BitVec.ofNat 8 (0x80 + a % 64)).toNat = 0x80 + a % 64 := Nat.mod_eq_of_lt (by omega)
  have hmod : (0x80 + a % 64) % 64 = a % 64 := by omega
  have hstate : transRom s (classRom (BitVec.ofNat 8 (0x80 + a % 64))) = unrestricted (s.owed - 1) := by
    rw [transRom_classRom_of_inProgress hs, hnat, if_pos hr]
  have hne : transRom s (classRom (BitVec.ofNat 8 (0x80 + a % 64))) ≠ .reject := hstate ▸ unrestricted_ne_reject _
  refine occurs_step h (b := BitVec.ofNat 8 (0x80 + a % 64)) ?_
  rw [stepInst, stepCore_state, hstate, stepCore_acc_inProgress hs hne, shiftIn_ofNat, hnat, hmod, Nat.div_add_mod']

/-- The pairs that owe three bytes are entered by a first byte. -/
theorem occurs_of_owed_three {s : DecState} (hs : s.owed = 3) {a : Nat} (h : tabledAcc s a) : Occurs s a := by
  cases s <;> cases hs <;> simp only [tabledAcc] at h
  case cont3 =>
    exact occurs_lead .lead4 (by decide) (n := 0xF0 + a) (by omega) (by simp [ByteClass.ranges]; omega)
      (by simp [seedMask]; omega)
  case cont3F0 => exact occurs_lead .lead4F0 (by decide) (n := 0xF0) (by decide) (by decide) h.symm
  case cont3F4 => exact occurs_lead .lead4F4 (by decide) (n := 0xF4) (by decide) (by decide) h.symm

/-- The pairs that owe two bytes are entered by a first byte, or from a pair that owes three. -/
theorem occurs_of_owed_two {s : DecState} (hs : s.owed = 2) {a : Nat} (h : tabledAcc s a) : Occurs s a := by
  cases s <;> cases hs <;> simp only [tabledAcc] at h
  case cont2 =>
    by_cases hlead : a < 0x10
    · exact occurs_lead .lead3 (by decide) (n := 0xE0 + a) (by omega) (by simp [ByteClass.ranges]; omega)
        (by simp [seedMask]; omega)
    by_cases hlow : a < 0x40
    · exact occurs_shift (s := .cont3F0) (occurs_of_owed_three rfl (by simp only [tabledAcc]; omega)) rfl
        (by simp only [DecState.nextRange]; omega)
    by_cases hhigh : 0x100 ≤ a
    · exact occurs_shift (s := .cont3F4) (occurs_of_owed_three rfl (by simp only [tabledAcc]; omega)) rfl
        (by simp only [DecState.nextRange]; omega)
    · exact occurs_shift (s := .cont3) (occurs_of_owed_three rfl (by simp only [tabledAcc]; omega)) rfl
        (by simp only [DecState.nextRange]; omega)
  case cont2E0 => exact occurs_lead .lead3E0 (by decide) (n := 0xE0) (by decide) (by decide) h.symm
  case cont2ED => exact occurs_lead .lead3ED (by decide) (n := 0xED) (by decide) (by decide) h.symm

/-- The pairs that owe one byte are entered by a first byte, or from a pair that owes two. -/
theorem occurs_cont1 {a : Nat} (h : tabledAcc .cont1 a) : Occurs .cont1 a := by
  simp only [tabledAcc] at h
  by_cases hlead : a < 0x20
  · exact occurs_lead .lead2 (by decide) (n := 0xC0 + a) (by omega) (by simp [ByteClass.ranges]; omega)
      (by simp [seedMask]; omega)
  by_cases hlow : a < 0x40
  · exact occurs_shift (s := .cont2E0) (occurs_of_owed_two rfl (by simp only [tabledAcc]; omega)) rfl
      (by simp only [DecState.nextRange]; omega)
  by_cases hsurr : a / 64 = 0xD
  · exact occurs_shift (s := .cont2ED) (occurs_of_owed_two rfl hsurr) rfl (by simp only [DecState.nextRange]; omega)
  · exact occurs_shift (s := .cont2) (occurs_of_owed_two rfl (by simp only [tabledAcc]; omega)) rfl
      (by simp only [DecState.nextRange]; omega)

/-- Every scalar value is entered by its one byte, or from a pair that owes one. -/
theorem occurs_accept {a : Nat} (h : tabledAcc .accept a) : Occurs .accept a := by
  simp only [tabledAcc] at h
  by_cases hlead : a < 0x80
  · exact occurs_lead .ascii (by decide) (n := a) (by omega) (by simp [ByteClass.ranges]; omega)
      (by simp [seedMask]; omega)
  · exact occurs_shift (s := .cont1) (occurs_cont1 (by simp only [tabledAcc]; omega)) rfl
      (by simp only [DecState.nextRange]; omega)

theorem occurs_of_tabledAcc {s : DecState} {a : Nat} (h : tabledAcc s a) : Occurs s a := by
  cases s with
  | accept => exact occurs_accept h
  | reject => exact ⟨[0xFF#8], by rw [show a = 0 from h]; rfl⟩
  | cont1 => exact occurs_cont1 h
  | cont2 => exact occurs_of_owed_two rfl h
  | cont2E0 => exact occurs_of_owed_two rfl h
  | cont2ED => exact occurs_of_owed_two rfl h
  | cont3 => exact occurs_of_owed_three rfl h
  | cont3F0 => exact occurs_of_owed_three rfl h
  | cont3F4 => exact occurs_of_owed_three rfl h

/-- Settles O46: the bytes lead the one instance of the machine from the start pair to the pair. -/
theorem everyTabledPairOccurs : Obligations.EveryTabledPairOccurs := by
  unfold Obligations.EveryTabledPairOccurs
  intro d hd
  obtain ⟨bs, hbs⟩ := occurs_of_tabledAcc ((tabled_iff d).1 hd)
  rw [BitVec.ofNat_toNat, BitVec.setWidth_eq] at hbs
  obtain ⟨t, ht, -, hti, -⟩ := issueAll_steps decEffect_decStep bs (State.resetOf_selected (n := 1) le_rfl)
  exact ⟨bs, t, _, ht, by rw [hti, hbs]; rfl⟩

end Sys2Proof.Machine
end

section
/-! SUPPORT. The literal streams of the source (42_reference_driver.md R91; 70_reset_and_hazards.md section 2) and the
words of assembler lines (30_encoding.md R50). -/

namespace Sys2Proof.Machine

/-- Settles O55: the four streams, by running them. -/
theorem sourceExamples : Obligations.SourceExamples := by
  unfold Obligations.SourceExamples
  simp only [List.forall_mem_cons]
  exact ⟨⟨_, _, rfl, rfl, rfl, rfl⟩, ⟨_, _, rfl, rfl, rfl, rfl⟩, ⟨_, _, rfl, rfl, rfl, rfl⟩, ⟨_, _, rfl, rfl, rfl, rfl⟩,
    List.forall_mem_nil _⟩

/-- Settles O56: the three streams, by running them. -/
theorem otherDriversForContrast : Obligations.OtherDriversForContrast := by
  unfold Obligations.OtherDriversForContrast
  exact ⟨⟨_, _, rfl, rfl⟩, ⟨_, _, rfl, rfl⟩, ⟨_, _, rfl, rfl⟩⟩

/-- A line is an operation exactly when its operand fits. -/
theorem instrOfRaw_isSome (r : RawOp) : RawOp.wf r = true ↔ ∃ i, instrOfRaw r = some i := by
  obtain ⟨op, operand⟩ := r
  cases op <;> cases operand <;> simp [instrOfRaw, RawOp.wf]

/-- A byte operand, zero-extended. -/
theorem setWidth_ofNat_of_lt {n : Nat} (h : n < 256) : (BitVec.ofNat 8 n).setWidth 32 = BitVec.ofNat 32 n := by
  apply BitVec.eq_of_toNat_eq
  rw [BitVec.toNat_setWidth, BitVec.toNat_ofNat, BitVec.toNat_ofNat]
  omega

/-- The operation of a line is the one it names, with its operand, zero-extended, in the operand field. -/
theorem instrOfRaw_fields {r : RawOp} {i : Instr} (h : instrOfRaw r = some i) :
    i.opcode = r.op ∧ i.arg = BitVec.ofNat 32 (r.operand.getD 0) := by
  obtain ⟨op, operand⟩ := r
  cases op <;> cases operand <;> simp [instrOfRaw, RawOp.wf] at h
  case decInit.none => subst h; exact ⟨rfl, rfl⟩
  case decStep.some n => obtain ⟨hn, rfl⟩ := h; exact ⟨rfl, setWidth_ofNat_of_lt hn⟩
  case decVstep.some n => obtain ⟨hn, rfl⟩ := h; exact ⟨rfl, setWidth_ofNat_of_lt hn⟩
  case decFinish.none => subst h; exact ⟨rfl, rfl⟩
  case encEncode.some n => obtain ⟨-, rfl⟩ := h; exact ⟨rfl, rfl⟩
  case encLength.some n => obtain ⟨-, rfl⟩ := h; exact ⟨rfl, rfl⟩

/-- Settles O57: the two lines by evaluation, the word of any other by the fields of its operation. -/
theorem assembledWords : Obligations.AssembledWords := by
  unfold Obligations.AssembledWords
  refine ⟨by decide, by decide, fun r => ⟨instrOfRaw_isSome r, fun i hi => ?_⟩⟩
  obtain ⟨hop, harg⟩ := instrOfRaw_fields hi
  rw [encode, hop, harg]

end Sys2Proof.Machine
end
